-- ==== Sys2Proof/Word.lean ====
section
/-! DEFINITION. The word the host's accesses carry and the byte a byte-addressed bus sees
(20_memory.md R60, R64). The `W`-bit data registers are natural numbers (00_scope.md R8,
10_state.md R22), not bit vectors: the spec's arithmetic on them never wraps. -/

namespace Sys2Proof

/-- The unit of every admitted access and of a command word: 32 bits (20_memory.md R65, 30_encoding.md R90). -/
abbrev Word := BitVec 32

/-- One byte of a word on a byte-addressed bus (20_memory.md R64). -/
abbrev Byte := BitVec 8

end Sys2Proof
end

