-- ==== Sys2Proof/Config.lean ====
section
/-! DEFINITION. The parameters of the block (00_scope.md R6). `XLEN = 32` and `NREG = 14` are fixed
there and are fixed here by the types. The spec leaves no value free (93_implementation_defined.md,
Part 1), so there is no opaque constant. -/

namespace Sys2Proof

/-- The two parameters a model takes as arguments (00_scope.md R6, 92_eei_decisions.md D2, D4).
`State` carries one value of this type, which no step changes (log 1). -/
structure Config where
  /-- `W`: the width in bits of every data register. -/
  width : Nat
  /-- `BASE`: the byte address of the register window in the host's address space. -/
  base : Nat
deriving DecidableEq, Repr

/-- `W` at the spec's default 256 (00_scope.md R6). `BASE` has no default in the spec: 0 is the
model's (DESIGN CHOICE, log 2). -/
def Config.default : Config where
  width := 256
  base := 0

end Sys2Proof
end

