-- ==== Sys2Proof/Syntax.lean ====
section
/-! DEFINITION. The eight commands (30_encoding.md R94), one constructor per row of the opcode table.
A command word has no operand fields (R90, R93), so no constructor has an argument. -/

namespace Sys2Proof

/-- A command of the block. -/
inductive Instr where
  /-- `MONTMUL`, unit montgomery_multiplier (40_modular.md R121). -/
  | montmul
  /-- `BARRETT`, unit barrett_reduce (40_modular.md R122). -/
  | barrett
  /-- `MODINV`, unit modular_inverse_gcd (40_modular.md R123). -/
  | modinv
  /-- `W_ADD`, unit weierstrass_point_add (41_weierstrass.md R153). -/
  | wAdd
  /-- `W_DBL`, unit weierstrass_point_double (41_weierstrass.md R154). -/
  | wDbl
  /-- `W_SMUL`, unit weierstrass_scalar_multiply (41_weierstrass.md R155). -/
  | wSmul
  /-- `M_ADD`, unit montgomery_curve_point_add (42_montgomery_curve.md R183). -/
  | mAdd
  /-- `M_SMUL`, unit montgomery_curve_scalar_multiply (42_montgomery_curve.md R184). -/
  | mSmul
deriving DecidableEq, Repr

end Sys2Proof
end

