-- ==== Sys2Proof/Machine/State.lean ====
section
/-! DEFINITION. The state of the block (10_state.md), the names of its registers, the host's side of
the window as plain data, and the reasons a step can stop. -/

namespace Sys2Proof.Machine

/-- The fourteen data registers (10_state.md R22), in the order of their numbers. -/
inductive RegName where
  | mod | ord | ca | cb | opa | opb | k | p1x | p1y | p2x | p2y
  | res | p3x | p3y
deriving DecidableEq, Repr

/-- `Point`, the sum type of 00_scope.md R11. -/
inductive Point where
  | inf
  | aff (x y : Nat)
deriving DecidableEq, Repr

/-- The failure kinds (60_exceptions.md R200). None of them is a machine fault: each is a value
reported in `STATUS.ERR` (R209). -/
inductive Failure where
  /-- Raised by every command on a zero modulus, and by MONTMUL on an even one (R201). -/
  | invalidModulus
  /-- Raised by MODINV and the curve commands when an inverse does not exist (R202). -/
  | notInvertible
  /-- Reserved: no command raises it (R207). -/
  | noValidPoint
  /-- Raised by a write to `CMD` of a word that is no command (R206). -/
  | illegalCommand
  /-- Raised by a curve command on an affine coordinate not below `MOD` (R203). -/
  | badOperand
deriving DecidableEq, Repr

/-- The result of a command that succeeds: an Integer for `RES` or a Point for `P3` (10_state.md R28). -/
inductive Result where
  | int (v : Nat)
  | point (P : Point)
deriving DecidableEq, Repr

/-- What a word of the window is (20_memory.md R68). -/
inductive Slot where
  | cmd | status | ptag | rtag | reserved
  /-- word `j` of data register `r` (20_memory.md R63) -/
  | data (r : RegName) (j : Nat)
deriving DecidableEq, Repr

/-- One event at the block's boundary: a host access at a byte address of the host's address space,
`bytes` wide, or a reset (20_memory.md R61, R62; 70_reset_and_hazards.md R240). `v` is the word
written; for an access that is not four bytes wide it is not looked at, since the block gives such an
access no meaning (20_memory.md R65). -/
inductive HostEvent where
  | read (addr bytes : Nat)
  | write (addr bytes : Nat) (v : Word)
  | reset
deriving DecidableEq, Repr

/-- The architectural state (10_state.md R20) and, apart from it, the model's own fields `cfg`,
`pending` and `answers` (log 1, 3, 4). The data registers are natural numbers "in `[0, 2^W)`"
(R22); that they stay there is an invariant of the step (log 6). -/
structure State where
  /-- The parameters `W` and `BASE`, not state of the block; no step changes them (log 1). -/
  cfg : Config
  /-- `CMD` (10_state.md R32). -/
  cmd : Word
  /-- `STATUS` (10_state.md R33). -/
  status : Word
  /-- `PTAG` (10_state.md R30). -/
  ptag : Word
  /-- `RTAG` (10_state.md R31). -/
  rtag : Word
  /-- `MOD`, register 0. -/
  mod : Nat
  /-- `ORD`, register 1. -/
  ord : Nat
  /-- `CA`, register 2. -/
  ca : Nat
  /-- `CB`, register 3. -/
  cb : Nat
  /-- `OPA`, register 4. -/
  opa : Nat
  /-- `OPB`, register 5. -/
  opb : Nat
  /-- `K`, register 6. -/
  k : Nat
  /-- `P1X`, register 7. -/
  p1x : Nat
  /-- `P1Y`, register 8. -/
  p1y : Nat
  /-- `P2X`, register 9. -/
  p2x : Nat
  /-- `P2Y`, register 10. -/
  p2y : Nat
  /-- `RES`, register 11. -/
  res : Nat
  /-- `P3X`, register 12. -/
  p3x : Nat
  /-- `P3Y`, register 13. -/
  p3y : Nat
  /-- Host accesses and resets still to come, oldest first (20_memory.md R70, R71; log 3). -/
  pending : List HostEvent
  /-- What the host's reads were answered with, oldest first (log 4). -/
  answers : List Word
deriving DecidableEq, Repr

/-- No machine fault exists: every outcome of a command is "ordinary *values* of a completed step"
(60_exceptions.md R209), and every command terminates (70_reset_and_hazards.md R252). -/
inductive Fault where
deriving DecidableEq, Repr

/-- The reasons a step is refused. Except for the first they are the host accesses "the block gives
no meaning" (20_memory.md R65), raised by `accept`; refusing them is safe: nothing is claimed of what
the platform does with them. -/
inductive Refusal where
  /-- Raised only by an arm of `exec` whose command has no meaning yet; there is none. Safe. -/
  | notModelled (mnemonic : String)
  /-- An access that is not 32 bits wide. Safe. -/
  | accessSize (bytes : Nat)
  /-- An access outside `[BASE, BASE + WINSZ)`. Safe. -/
  | outsideWindow (addr : Nat)
  /-- An access at an offset that is not a multiple of 4. Safe. -/
  | misaligned (addr : Nat)
deriving DecidableEq, Repr

/-- The state right after reset for given parameters: every register zero (10_state.md R37,
70_reset_and_hazards.md R240), nothing pending, nothing answered. -/
def State.resetWith (c : Config) : State where
  cfg := c
  cmd := 0#32
  status := 0#32
  ptag := 0#32
  rtag := 0#32
  mod := 0
  ord := 0
  ca := 0
  cb := 0
  opa := 0
  opb := 0
  k := 0
  p1x := 0
  p1y := 0
  p2x := 0
  p2y := 0
  res := 0
  p3x := 0
  p3y := 0
  pending := []
  answers := []

/-- The state right after reset, at the default parameters (log 2). -/
def State.reset : State := State.resetWith Config.default

end Sys2Proof.Machine
end

