-- ==== Sys2Proof/Machine/Arith.lean ====
section
/-! DEFINITION. Exact integer arithmetic (00_scope.md R8 to R10, 40_modular.md R120) and the functions
of 40_modular.md R126 to R130 that have no command of their own. -/

namespace Sys2Proof.Machine

/-- `v mod m` for `m > 0`: the floored remainder (00_scope.md R9). -/
def modN (v : Int) (m : Nat) : Nat := (v % (m : Int)).toNat

/-- `bitlen(v)`: the least `n` with `v < 2^n` (00_scope.md R10). -/
def bitlen (v : Nat) : Nat := if v = 0 then 0 else Nat.log2 v + 1

/-- `v[i] = 1` (00_scope.md R10). -/
def bit (v i : Nat) : Bool := v / 2 ^ i % 2 == 1

/-- The loop of `extended_gcd` (40_modular.md R126), on the pairs `(r0, r1)`, `(s0, s1)`, `(t0, t1)`.
The first argument bounds the iterations (log 13). -/
def egcdLoop : Nat → Nat → Nat → Int → Int → Int → Int → Nat × Int × Int
  | 0, r0, _, s0, _, t0, _ => (r0, s0, t0)
  | fuel + 1, r0, r1, s0, s1, t0, t1 =>
    if r1 = 0 then (r0, s0, t0)
    else
      let q := r0 / r1
      egcdLoop fuel r1 (r0 - q * r1) s1 (s0 - q * s1) t1 (t0 - q * t1)

/-- `extended_gcd(a, b) = (g, x, y)` (40_modular.md R126). Two iterations at least halve the
remainder, so `2 * bitlen b` of them end the loop (DEDUCED, log 13). -/
def extendedGcd (a b : Nat) : Nat × Int × Int :=
  egcdLoop (2 * bitlen b) a b 1 0 0 1

/-- `mod_inverse(a, m)` for `m > 0` (40_modular.md R127). -/
def modInverse (a m : Nat) : Except Failure Nat :=
  let (g, x, _) := extendedGcd a m
  if g ≠ 1 then .error .notInvertible else .ok (modN x m)

/-- `inv_mod(d, m)` for `d` in ℤ and `m > 0` (40_modular.md R128). -/
def invMod (d : Int) (m : Nat) : Except Failure Nat := modInverse (modN d m) m

/-- The loop of `modpow`: bits `i - 1` down to 0 of the exponent (40_modular.md R130). -/
def modpowLoop (base exponent m : Nat) : Nat → Nat → Nat
  | 0, acc => acc
  | i + 1, acc =>
    let acc := acc * acc % m
    let acc := if bit exponent i then acc * base % m else acc
    modpowLoop base exponent m i acc

/-- `modpow(base, exponent, modulus)` for naturals and an integer modulus (40_modular.md R130;
log 15). -/
def modpow (base exponent : Nat) (modulus : Int) : Except Failure Nat :=
  if modulus ≤ 0 then .error .invalidModulus
  else
    let m := modulus.toNat
    .ok (modpowLoop base exponent m (bitlen exponent) (1 % m))

end Sys2Proof.Machine
end

