-- ==== Sys2Proof/WellFormed.lean ====
section
/-! DEFINITION. What is well formed: a configuration (00_scope.md R6, 20_memory.md R60) and an
instruction. Whether a host access is admitted is decided by the machine (`Machine/Window.lean`). -/

namespace Sys2Proof

/-- "a multiple of 32, at least 256" for `W` (00_scope.md R6), and `BASE` "a multiple of 4"
(20_memory.md R60). That the window does not wrap the host's address space needs no check:
addresses are natural numbers here (log 7). -/
abbrev Config.wf (c : Config) : Prop :=
  32 ∣ c.width ∧ 256 ≤ c.width ∧ 4 ∣ c.base

/-- A command has no operand field that could hold an illegal value (30_encoding.md R90, R93),
so every term of `Instr` is well formed. -/
def Instr.wf : Instr → Bool
  | .montmul | .barrett | .modinv | .wAdd | .wDbl | .wSmul | .mAdd | .mSmul => true

end Sys2Proof
end

