-- ==== Sys2Proof/Decode.lean ====
section
/-! DEFINITION. Decoding and encoding of command words (30_encoding.md R90, R94 to R99), on words and,
for a byte-addressed bus, on bytes (20_memory.md R64). -/

namespace Sys2Proof

/-- Why a word or a byte string is no command. -/
inductive DecodeError where
  /-- `RSV`, bits 31:8, is not zero (30_encoding.md R90, R96). Safe: the block reports IllegalCommand. -/
  | reservedNotZero
  /-- `RSV` is zero and `OPC` is not assigned (30_encoding.md R96). Safe: the block reports IllegalCommand. -/
  | unassignedOpcode
  /-- Fewer than the four bytes of a command word (30_encoding.md R97). Raised on byte strings only. -/
  | tooFewBytes
deriving DecidableEq, Repr

/-- Field `OPC`, bits 7:0 (30_encoding.md R90). -/
def opcField (v : Word) : BitVec 8 := v.extractLsb' 0 8

/-- Field `RSV`, bits 31:8 (30_encoding.md R90). -/
def rsvField (v : Word) : BitVec 24 := v.extractLsb' 8 24

/-- `decode` of 30_encoding.md R99: a total function on words. -/
def decode (v : Word) : Except DecodeError Instr :=
  if rsvField v ≠ 0#24 then .error .reservedNotZero
  else
    match opcField v with
    | 0x01#8 => .ok .montmul
    | 0x02#8 => .ok .barrett
    | 0x03#8 => .ok .modinv
    | 0x10#8 => .ok .wAdd
    | 0x11#8 => .ok .wDbl
    | 0x12#8 => .ok .wSmul
    | 0x20#8 => .ok .mAdd
    | 0x22#8 => .ok .mSmul
    | _ => .error .unassignedOpcode

/-- `encode` of 30_encoding.md R99: the command word of R94. -/
def encode : Instr → Word
  | .montmul => 0x00000001#32
  | .barrett => 0x00000002#32
  | .modinv => 0x00000003#32
  | .wAdd => 0x00000010#32
  | .wDbl => 0x00000011#32
  | .wSmul => 0x00000012#32
  | .mAdd => 0x00000020#32
  | .mSmul => 0x00000022#32

/-- One row of the machine-readable opcode table (30_encoding.md R95). -/
structure OpcodeRow where
  mask : Word
  pattern : Word
  instr : Instr
deriving DecidableEq, Repr

/-- The opcode table: `mask` is all ones in every row (30_encoding.md R94, R95). -/
def opcodeTable : List OpcodeRow :=
  [ ⟨0xFFFFFFFF#32, 0x00000001#32, .montmul⟩,
    ⟨0xFFFFFFFF#32, 0x00000002#32, .barrett⟩,
    ⟨0xFFFFFFFF#32, 0x00000003#32, .modinv⟩,
    ⟨0xFFFFFFFF#32, 0x00000010#32, .wAdd⟩,
    ⟨0xFFFFFFFF#32, 0x00000011#32, .wDbl⟩,
    ⟨0xFFFFFFFF#32, 0x00000012#32, .wSmul⟩,
    ⟨0xFFFFFFFF#32, 0x00000020#32, .mAdd⟩,
    ⟨0xFFFFFFFF#32, 0x00000022#32, .mSmul⟩ ]

/-- "A decoder written from that table alone is: find the row whose `match` equals the word; if none,
the word is illegal" (30_encoding.md R95). -/
def decodeByTable (v : Word) : Option Instr :=
  (opcodeTable.find? fun row => v &&& row.mask == row.pattern).map (·.instr)

/-- The four bytes of a word, lowest address first: byte `b` is bits `8b+7 : 8b` (20_memory.md R64;
log 14). -/
def wordBytes (v : Word) : List Byte :=
  [v.extractLsb' 0 8, v.extractLsb' 8 8, v.extractLsb' 16 8, v.extractLsb' 24 8]

/-- The word whose bytes at rising addresses are `b0 b1 b2 b3` (20_memory.md R64). -/
def wordOfBytes (b0 b1 b2 b3 : Byte) : Word := b3 ++ b2 ++ b1 ++ b0

/-- Decode one command from the front of a byte string; a command is always one 32-bit word
(30_encoding.md R97). -/
def decodeBytes : List Byte → Except DecodeError (Instr × List Byte)
  | b0 :: b1 :: b2 :: b3 :: rest =>
    match decode (wordOfBytes b0 b1 b2 b3) with
    | .ok i => .ok (i, rest)
    | .error e => .error e
  | _ => .error .tooFewBytes

/-- The bytes of a command as the host's bus carries them. -/
def encodeBytes (i : Instr) : List Byte := wordBytes (encode i)

/-- The instruction the decoder reads from an instruction whose bits are `w`, numbered as the opcode
table numbers them; bits from `nbits` on are zero. -/
def decodeTableWord (nbits w : Nat) : Option Instr :=
  let bits := w % 2 ^ nbits
  if bits < 2 ^ 32 then
    match decodeBytes (wordBytes (BitVec.ofNat 32 bits)) with
    | .ok (i, _) => some i
    | .error _ => none
  else none

end Sys2Proof
end

