-- ==== Sys2Proof/Machine/Flags.lean ====
section
/-! DEFINITION. The fields of `STATUS`, `PTAG` and `RTAG` (10_state.md R30, R31, R33) and the numeric
codes of the outcomes (60_exceptions.md R200). -/

namespace Sys2Proof.Machine

/-- The code of a failure kind in `STATUS.ERR` (60_exceptions.md R200). Code 0 is `OK`. -/
def Failure.code : Failure → BitVec 4
  | .invalidModulus => 1#4
  | .notInvertible => 2#4
  | .noValidPoint => 3#4
  | .illegalCommand => 4#4
  | .badOperand => 5#4

/-- A `STATUS` word from its two fields; bits 31:5 are zero (10_state.md R33). -/
def statusWord (rvalid : Bool) (err : BitVec 4) : Word := 0#27 ++ BitVec.ofBool rvalid ++ err

/-- `STATUS` after a success: `ERR = 0`, `RVALID = 1` (30_encoding.md R91 step 5). -/
def statusOk : Word := statusWord true 0#4

/-- `STATUS` after `raise k`: `ERR` the code of `k`, `RVALID = 0` (60_exceptions.md R204). -/
def statusFail (k : Failure) : Word := statusWord false k.code

/-- `STATUS.ERR`, bits 3:0 (10_state.md R33). -/
def State.err (s : State) : BitVec 4 := s.status.extractLsb' 0 4

/-- `STATUS.RVALID`, bit 4 (10_state.md R33). -/
def State.rvalid (s : State) : Bool := s.status.getLsbD 4

/-- `PTAG.P1INF`, bit 0 (10_state.md R30). -/
def State.p1inf (s : State) : Bool := s.ptag.getLsbD 0

/-- `PTAG.P2INF`, bit 1 (10_state.md R30). -/
def State.p2inf (s : State) : Bool := s.ptag.getLsbD 1

/-- `RTAG.P3INF`, bit 0 (10_state.md R31). -/
def State.p3inf (s : State) : Bool := s.rtag.getLsbD 0

/-- What a host write of `v` leaves in `PTAG`: `v[1:0]`, bits 31:2 dropped (20_memory.md R62). -/
def ptagOfWrite (v : Word) : Word := (v.extractLsb' 0 2).setWidth 32

/-- `RTAG` from its one field; bits 31:1 are zero (10_state.md R31). -/
def rtagWord (inf : Bool) : Word := 0#31 ++ BitVec.ofBool inf

end Sys2Proof.Machine
end

