-- ==== Sys2Proof/Machine/Operands.lean ====
section
/-! DEFINITION. How a command's operands are assembled from the registers "and in no other way"
(30_encoding.md R93). Integer operands and curve parameters are the registers themselves
(10_state.md R23 to R26). -/

namespace Sys2Proof.Machine

/-- `point(1)` (00_scope.md R12, 10_state.md R27). -/
def State.point1 (s : State) : Point := if s.p1inf then .inf else .aff s.p1x s.p1y

/-- `point(2)` (00_scope.md R12, 10_state.md R27). -/
def State.point2 (s : State) : Point := if s.p2inf then .inf else .aff s.p2x s.p2y

/-- The point result a host reads: `(RTAG.P3INF, P3X, P3Y)` (10_state.md R27, R31). -/
def State.point3 (s : State) : Point := if s.p3inf then .inf else .aff s.p3x s.p3y

/-- The `2W`-bit input of BARRETT, `x[OPB] ∥ x[OPA]` (10_state.md R25, 00_scope.md R10). -/
def State.barrettInput (s : State) : Nat := s.opb * 2 ^ s.cfg.width + s.opa

/-- The Montgomery radix `R = 2^W` (00_scope.md R6). -/
def State.radix (s : State) : Nat := 2 ^ s.cfg.width

end Sys2Proof.Machine
end

