-- ==== Sys2Proof/Machine/Ops.lean ====
section
/-! DEFINITION. The named operations on the registers: reading and writing a data register, the steps
every command shares (30_encoding.md R91), and taking a failure (60_exceptions.md R204). There is no
memory, so there is no memory operation (10_state.md R20, 20_memory.md R69). -/

namespace Sys2Proof.Machine

/-- The number of a data register (10_state.md R22). -/
def RegName.number : RegName → Nat
  | .mod => 0 | .ord => 1 | .ca => 2 | .cb => 3 | .opa => 4 | .opb => 5 | .k => 6
  | .p1x => 7 | .p1y => 8 | .p2x => 9 | .p2y => 10 | .res => 11 | .p3x => 12 | .p3y => 13

/-- The data register of a number (10_state.md R22); there are fourteen. -/
def RegName.ofNumber : Nat → Option RegName
  | 0 => some .mod | 1 => some .ord | 2 => some .ca | 3 => some .cb | 4 => some .opa
  | 5 => some .opb | 6 => some .k | 7 => some .p1x | 8 => some .p1y | 9 => some .p2x
  | 10 => some .p2y | 11 => some .res | 12 => some .p3x | 13 => some .p3y
  | _ => none

/-- Registers 0 to 10 are operand registers, 11 to 13 result registers (10_state.md R22). -/
def RegName.isOperand (r : RegName) : Bool := r.number ≤ 10

/-- `x[r]` (00_scope.md R12). -/
def State.getReg (s : State) : RegName → Nat
  | .mod => s.mod | .ord => s.ord | .ca => s.ca | .cb => s.cb | .opa => s.opa | .opb => s.opb
  | .k => s.k | .p1x => s.p1x | .p1y => s.p1y | .p2x => s.p2x | .p2y => s.p2y
  | .res => s.res | .p3x => s.p3x | .p3y => s.p3y

/-- `x[r] <- v` (00_scope.md R12). -/
def State.setReg (s : State) (r : RegName) (v : Nat) : State :=
  match r with
  | .mod => { s with mod := v }
  | .ord => { s with ord := v }
  | .ca => { s with ca := v }
  | .cb => { s with cb := v }
  | .opa => { s with opa := v }
  | .opb => { s with opb := v }
  | .k => { s with k := v }
  | .p1x => { s with p1x := v }
  | .p1y => { s with p1y := v }
  | .p2x => { s with p2x := v }
  | .p2y => { s with p2y := v }
  | .res => { s with res := v }
  | .p3x => { s with p3x := v }
  | .p3y => { s with p3y := v }

/-- Steps 1 and 2 of a command: `CMD` takes the word and every result location and `STATUS` is
cleared (30_encoding.md R91, R92). -/
def State.beginCommand (s : State) (v : Word) : State :=
  { s with cmd := v, res := 0, p3x := 0, p3y := 0, rtag := 0#32, status := 0#32 }

/-- `raise k` in a command that has begun: the results stay cleared, `STATUS` reports `k`
(60_exceptions.md R204). The one operation by which a failure is taken; there is no return from it
(R208). -/
def State.raise (s : State) (k : Failure) : State := { s with status := statusFail k }

/-- `result_point <- P` (00_scope.md R12). -/
def State.resultPoint (s : State) : Point → State
  | .inf => { s with rtag := rtagWord true, p3x := 0, p3y := 0 }
  | .aff u v => { s with rtag := rtagWord false, p3x := u, p3y := v }

/-- Write the result of a command that succeeds and report the success (30_encoding.md R91 step 5). -/
def State.succeed (s : State) : Result → State
  | .int v => { s with res := v, status := statusOk }
  | .point P => { s.resultPoint P with status := statusOk }

/-- Steps 1 to 5 of 30_encoding.md R91 for the command `i`, whose rule is `rule`. The rule is given
the state with the results already cleared, as R91 has it. -/
def runCommand (i : Instr) (rule : State → Except Failure Result) (s : State) : State :=
  let s1 := s.beginCommand (encode i)
  match rule s1 with
  | .ok r => s1.succeed r
  | .error k => s1.raise k

/-- A reset event: every register of 10_state.md R20 becomes zero (70_reset_and_hazards.md R240). The
parameters, the host's further accesses and the answers it already has are not the block's (log 10). -/
def State.resetEvent (s : State) : State :=
  { State.resetWith s.cfg with pending := s.pending, answers := s.answers }

end Sys2Proof.Machine
end

