-- ==== Sys2Proof/Machine/Modular.lean ====
section
/-! DEFINITION. The modular commands MONTMUL, BARRETT and MODINV (40_modular.md). -/

namespace Sys2Proof.Machine

/-- MONTMUL (40_modular.md R121): `a`, `b` any naturals, `N` odd; `R = 2^W`. -/
def montmul (R a b N : Nat) : Except Failure Nat :=
  if N = 0 then .error .invalidModulus
  else if N % 2 = 0 then .error .invalidModulus
  else if N = 1 then .ok 0
  else
    match invMod (R % N : Nat) N with
    | .error e => .error e
    | .ok rinv => .ok (a * b * rinv % N)

/-- BARRETT (40_modular.md R122) of the double-width `x`. -/
def barrett (x m : Nat) : Except Failure Nat :=
  if m = 0 then .error .invalidModulus else .ok (x % m)

/-- MODINV (40_modular.md R123). -/
def modinv (a m : Nat) : Except Failure Nat :=
  if m = 0 then .error .invalidModulus else modInverse a m

/-- The rule of MONTMUL on the operand registers (40_modular.md R121). -/
def ruleMontmul (s : State) : Except Failure Result :=
  (montmul s.radix s.opa s.opb s.mod).map .int

/-- The rule of BARRETT on the operand registers (40_modular.md R122). -/
def ruleBarrett (s : State) : Except Failure Result :=
  (barrett s.barrettInput s.mod).map .int

/-- The rule of MODINV on the operand registers (40_modular.md R123). -/
def ruleModinv (s : State) : Except Failure Result :=
  (modinv s.opa s.mod).map .int

/-- MONTMUL (40_modular.md R121). -/
def execMontmul (s : State) : Host.Outcome State Fault Refusal :=
  .next (runCommand .montmul ruleMontmul s)

/-- BARRETT (40_modular.md R122). -/
def execBarrett (s : State) : Host.Outcome State Fault Refusal :=
  .next (runCommand .barrett ruleBarrett s)

/-- MODINV (40_modular.md R123). -/
def execModinv (s : State) : Host.Outcome State Fault Refusal :=
  .next (runCommand .modinv ruleModinv s)

end Sys2Proof.Machine
end

