-- ==== Sys2Proof/Machine/Curve.lean ====
section
/-! DEFINITION. Points and the group laws of the two curves (41_weierstrass.md R151, R152, R156, R157;
42_montgomery_curve.md R181, R182). -/

namespace Sys2Proof.Machine

/-- A Point's coordinates are "`x, y ∈ [0, p)`" (41_weierstrass.md R156); `Inf` has none. No command
evaluates this predicate; statements do. -/
def Point.inRange (P : Point) (p : Nat) : Bool :=
  match P with
  | .inf => true
  | .aff x y => decide (x < p ∧ y < p)

/-- `check_point(P, p)` (41_weierstrass.md R156). -/
def checkPoint (P : Point) (p : Nat) : Except Failure Unit :=
  match P with
  | .inf => .ok ()
  | .aff x y => if x < p ∧ y < p then .ok () else .error .badOperand

/-- `w_is_on_curve(P, a, b, p)` (41_weierstrass.md R151). -/
def wIsOnCurve (P : Point) (a b p : Nat) : Bool :=
  match P with
  | .inf => true
  | .aff x y => modN ((y : Int) * y - (x * x * x + a * x + b)) p == 0

/-- `m_is_on_curve(P, A, B, p)` (42_montgomery_curve.md R181). -/
def mIsOnCurve (P : Point) (A B p : Nat) : Bool :=
  match P with
  | .inf => true
  | .aff x y => modN ((B : Int) * y * y - (x * x * x + A * x * x + x)) p == 0

/-- The slope `num · den⁻¹ mod p`, the `lam` of 41_weierstrass.md R152 and 42_montgomery_curve.md R182. -/
def slope (num den p : Nat) : Except Failure Nat :=
  match invMod den p with
  | .error e => .error e
  | .ok inv => .ok (modN (num * inv) p)

/-- `w_add(P1, P2, a, p)`, its four cases in the document's order (41_weierstrass.md R152). -/
def wAdd (P1 P2 : Point) (a p : Nat) : Except Failure Point :=
  match P1, P2 with
  | .inf, _ => .ok P2
  | .aff _ _, .inf => .ok P1
  | .aff x1 y1, .aff x2 y2 =>
    if x1 = x2 ∧ y1 = modN (-(y2 : Int)) p then .ok .inf
    else
      let nd : Nat × Nat :=
        if x1 = x2 ∧ y1 = y2 then
          (modN (3 * x1 * x1 + a) p, modN (2 * y1) p)
        else
          (modN ((y2 : Int) - y1) p, modN ((x2 : Int) - x1) p)
      match slope nd.1 nd.2 p with
      | .error e => .error e
      | .ok lam =>
        let x3 := modN ((lam : Int) * lam - x1 - x2) p
        let y3 := modN ((lam : Int) * (x1 - x3) - y1) p
        .ok (.aff x3 y3)

/-- `m_add(P1, P2, A, B, p)` (42_montgomery_curve.md R182). -/
def mAdd (P1 P2 : Point) (A B p : Nat) : Except Failure Point :=
  match P1, P2 with
  | .inf, _ => .ok P2
  | .aff _ _, .inf => .ok P1
  | .aff x1 y1, .aff x2 y2 =>
    if x1 = x2 ∧ y1 = modN (-(y2 : Int)) p then .ok .inf
    else
      let nd : Nat × Nat :=
        if x1 = x2 ∧ y1 = y2 then
          (modN (3 * x1 * x1 + 2 * A * x1 + 1) p, modN (2 * B * y1) p)
        else
          (modN ((y2 : Int) - y1) p, modN ((x2 : Int) - x1) p)
      match slope nd.1 nd.2 p with
      | .error e => .error e
      | .ok lam =>
        let x3 := modN ((B : Int) * lam * lam - A - x1 - x2) p
        let y3 := modN ((lam : Int) * (x1 - x3) - y1) p
        .ok (.aff x3 y3)

/-- The loop of `double_and_add`: bits `i - 1` down to 0 of the reduced scalar (41_weierstrass.md R157). -/
def doubleAndAddLoop (kr : Nat) (P : Point) (add : Point → Point → Except Failure Point) :
    Nat → Point → Except Failure Point
  | 0, acc => .ok acc
  | i + 1, acc =>
    match add acc acc with
    | .error e => .error e
    | .ok dbl =>
      if bit kr i then
        match add dbl P with
        | .error e => .error e
        | .ok sum => doubleAndAddLoop kr P add i sum
      else doubleAndAddLoop kr P add i dbl

/-- `double_and_add(k, P, n, add)` for `n > 0` (41_weierstrass.md R157). -/
def doubleAndAdd (k : Nat) (P : Point) (n : Nat) (add : Point → Point → Except Failure Point) :
    Except Failure Point :=
  doubleAndAddLoop (k % n) P add (bitlen (k % n)) .inf

end Sys2Proof.Machine
end

