-- ==== Sys2Proof/Machine/MontgomeryCurve.lean ====
section
/-! DEFINITION. The Montgomery-curve commands M_ADD and M_SMUL (42_montgomery_curve.md). The tests
stand in the order of 60_exceptions.md R205. -/

namespace Sys2Proof.Machine

/-- The rule of M_ADD (42_montgomery_curve.md R183). -/
def ruleMAdd (s : State) : Except Failure Result :=
  let p := s.mod
  if p = 0 then .error .invalidModulus
  else
    match checkPoint s.point1 p with
    | .error e => .error e
    | .ok () =>
      match checkPoint s.point2 p with
      | .error e => .error e
      | .ok () => (mAdd s.point1 s.point2 s.ca s.cb p).map .point

/-- The rule of M_SMUL (42_montgomery_curve.md R184). -/
def ruleMSmul (s : State) : Except Failure Result :=
  let p := s.mod
  let n := s.ord
  if p = 0 then .error .invalidModulus
  else if n = 0 then .error .invalidModulus
  else
    match checkPoint s.point1 p with
    | .error e => .error e
    | .ok () => (doubleAndAdd s.k s.point1 n fun Q1 Q2 => mAdd Q1 Q2 s.ca s.cb p).map .point

/-- M_ADD (42_montgomery_curve.md R183). -/
def execMAdd (s : State) : Host.Outcome State Fault Refusal :=
  .next (runCommand .mAdd ruleMAdd s)

/-- M_SMUL (42_montgomery_curve.md R184). -/
def execMSmul (s : State) : Host.Outcome State Fault Refusal :=
  .next (runCommand .mSmul ruleMSmul s)

end Sys2Proof.Machine
end

