-- ==== Sys2Proof/Machine/Weierstrass.lean ====
section
/-! DEFINITION. The short-Weierstrass commands W_ADD, W_DBL and W_SMUL (41_weierstrass.md). The tests
stand in the order of 60_exceptions.md R205. -/

namespace Sys2Proof.Machine

/-- The rule of W_ADD (41_weierstrass.md R153). -/
def ruleWAdd (s : State) : Except Failure Result :=
  let p := s.mod
  if p = 0 then .error .invalidModulus
  else
    match checkPoint s.point1 p with
    | .error e => .error e
    | .ok () =>
      match checkPoint s.point2 p with
      | .error e => .error e
      | .ok () => (wAdd s.point1 s.point2 s.ca p).map .point

/-- The rule of W_DBL (41_weierstrass.md R154): `w_add` of the point with itself. -/
def ruleWDbl (s : State) : Except Failure Result :=
  let p := s.mod
  if p = 0 then .error .invalidModulus
  else
    match checkPoint s.point1 p with
    | .error e => .error e
    | .ok () => (wAdd s.point1 s.point1 s.ca p).map .point

/-- The rule of W_SMUL (41_weierstrass.md R155). -/
def ruleWSmul (s : State) : Except Failure Result :=
  let p := s.mod
  let n := s.ord
  if p = 0 then .error .invalidModulus
  else if n = 0 then .error .invalidModulus
  else
    match checkPoint s.point1 p with
    | .error e => .error e
    | .ok () => (doubleAndAdd s.k s.point1 n fun Q1 Q2 => wAdd Q1 Q2 s.ca p).map .point

/-- W_ADD (41_weierstrass.md R153). -/
def execWAdd (s : State) : Host.Outcome State Fault Refusal :=
  .next (runCommand .wAdd ruleWAdd s)

/-- W_DBL (41_weierstrass.md R154). -/
def execWDbl (s : State) : Host.Outcome State Fault Refusal :=
  .next (runCommand .wDbl ruleWDbl s)

/-- W_SMUL (41_weierstrass.md R155). -/
def execWSmul (s : State) : Host.Outcome State Fault Refusal :=
  .next (runCommand .wSmul ruleWSmul s)

end Sys2Proof.Machine
end

