-- ==== Sys2Proof/Machine/Dispatch.lean ====
section
/-! DEFINITION. One command at a state: the effect of the host's write of that command's word to `CMD`
(30_encoding.md R91), one arm per command of R94 (log 12). -/

namespace Sys2Proof.Machine

def exec (i : Instr) (s : State) : Host.Outcome State Fault Refusal :=
  match i with
  | .montmul => Sys2Proof.Machine.execMontmul s
  | .barrett => Sys2Proof.Machine.execBarrett s
  | .modinv => Sys2Proof.Machine.execModinv s
  | .wAdd => Sys2Proof.Machine.execWAdd s
  | .wDbl => Sys2Proof.Machine.execWDbl s
  | .wSmul => Sys2Proof.Machine.execWSmul s
  | .mAdd => Sys2Proof.Machine.execMAdd s
  | .mSmul => Sys2Proof.Machine.execMSmul s

end Sys2Proof.Machine
end

