-- ==== Sys2Proof/Machine/Window.lean ====
section
/-! DEFINITION. The register window (20_memory.md): its size and layout, which accesses are admitted,
and the host's read. The host's write is in `Machine/Access.lean`, since a write to `CMD` executes. -/

namespace Sys2Proof.Machine

/-- `W/8`, the bytes of a data register in the window (20_memory.md R63). -/
def regBytes (c : Config) : Nat := c.width / 8

/-- `W/32`, the words of a data register in the window (20_memory.md R63). -/
def regWords (c : Config) : Nat := c.width / 32

/-- `WINSZ` (20_memory.md R60). -/
def windowSize (c : Config) : Nat := 0x100 + 14 * regBytes c

/-- The byte offset of data register `r` (10_state.md R22, 20_memory.md R68). -/
def regOffset (c : Config) (r : RegName) : Nat := 0x100 + r.number * regBytes c

/-- What the word at a byte offset of the window is (20_memory.md R61, R68). -/
def locate (c : Config) (off : Nat) : Slot :=
  if off = 0x000 then .cmd
  else if off = 0x004 then .status
  else if off = 0x008 then .ptag
  else if off = 0x00C then .rtag
  else if off < 0x100 then .reserved
  else
    match RegName.ofNumber ((off - 0x100) / regBytes c) with
    | some r => .data r ((off - 0x100) % regBytes c / 4)
    | none => .reserved

/-- `v[32j+31 : 32j]` (00_scope.md R10, 20_memory.md R63). -/
def getWord (v j : Nat) : Word := BitVec.ofNat 32 (v / 2 ^ (32 * j))

/-- `v` with bits `32j+31 : 32j` replaced by `w`, "the other bits ... unchanged" (20_memory.md R62). -/
def setWord (v j : Nat) (w : Word) : Nat :=
  v % 2 ^ (32 * j) + w.toNat * 2 ^ (32 * j) + v / 2 ^ (32 * (j + 1)) * 2 ^ (32 * (j + 1))

/-- The offset of an access in the window, or why the access is not admitted: only a 32-bit access at
an aligned offset below `WINSZ` is (20_memory.md R65). Which reason is named when several hold is the
model's choice (log 11). -/
def accept (c : Config) (addr bytes : Nat) : Except Refusal Nat :=
  if bytes ≠ 4 then .error (.accessSize bytes)
  else if addr < c.base ∨ c.base + windowSize c ≤ addr then .error (.outsideWindow addr)
  else if (addr - c.base) % 4 ≠ 0 then .error (.misaligned addr)
  else .ok (addr - c.base)

/-- `MemRead(off, 4)` (20_memory.md R61): the word read. That a read changes no state (R61) is in the
type: it answers a word only. -/
def memRead (s : State) (off : Nat) : Word :=
  match locate s.cfg off with
  | .cmd => s.cmd
  | .status => s.status
  | .ptag => s.ptag
  | .rtag => s.rtag
  | .reserved => 0#32
  | .data r j => getWord (s.getReg r) j

/-- The byte a byte-addressed bus sees at window offset `off + b` (20_memory.md R64). -/
def windowByte (s : State) (off b : Nat) : Byte := (memRead s off).extractLsb' (8 * b) 8

end Sys2Proof.Machine
end

