-- ==== Sys2Proof/Machine/Access.lean ====
section
/-! DEFINITION. What one event at the block's boundary does: issuing a command word (30_encoding.md
R91), the host's write (20_memory.md R62), its read (R61), and a reset (70_reset_and_hazards.md R240). -/

namespace Sys2Proof.Machine

/-- The host's write of `v` to `CMD` (30_encoding.md R91). A word that is no command is stored, clears
the results and fails with IllegalCommand (R96). -/
def issue (v : Word) (s : State) : Host.Outcome State Fault Refusal :=
  match decode v with
  | .ok i => exec i s
  | .error _ => .next ((s.beginCommand v).raise .illegalCommand)

/-- `MemWrite(off, 4, v)` (20_memory.md R62). -/
def memWrite (off : Nat) (v : Word) (s : State) : Host.Outcome State Fault Refusal :=
  match locate s.cfg off with
  | .cmd => issue v s
  | .status => .next s
  | .ptag => .next { s with ptag := ptagOfWrite v }
  | .rtag => .next s
  | .reserved => .next s
  | .data r j => .next (if r.isOperand then s.setReg r (setWord (s.getReg r) j v) else s)

/-- One event: an access that is not admitted is refused, with no step (20_memory.md R65). -/
def hostEvent (e : HostEvent) (s : State) : Host.Outcome State Fault Refusal :=
  match e with
  | .read addr bytes =>
    match accept s.cfg addr bytes with
    | .error r => .refused r
    | .ok off => .next { s with answers := s.answers ++ [memRead s off] }
  | .write addr bytes v =>
    match accept s.cfg addr bytes with
    | .error r => .refused r
    | .ok off => memWrite off v s
  | .reset => .next s.resetEvent

/-- Take the oldest pending event and perform it; with none pending the block is idle and nothing
changes (00_scope.md R7, 20_memory.md R70, 60_exceptions.md R225; log 3, 5). -/
def takeEvent (s : State) : Host.Outcome State Fault Refusal :=
  match s.pending with
  | [] => .next s
  | e :: rest => hostEvent e { s with pending := rest }

/-- `s` with one more event, to be performed next. -/
def State.withNext (s : State) (e : HostEvent) : State := { s with pending := e :: s.pending }

/-- `s` with the write of a command word to `CMD` (30_encoding.md R91) as its next event: where a
command comes from on this block (10_state.md R21). -/
def placeCommand (s : State) (w : Nat) : State :=
  s.withNext (.write s.cfg.base 4 (BitVec.ofNat 32 w))

end Sys2Proof.Machine
end

