-- ==== Sys2Proof/Machine/Step.lean ====
section
/-! DEFINITION. One step of the machine, and how a command word is handed to it. -/

namespace Sys2Proof.Machine

/-- One step: the oldest pending host access or reset, performed completely (20_memory.md R70, R71). -/
def step (s : State) : Host.Outcome State Fault Refusal := takeEvent s

/-- `s` about to run the instruction whose bits are `w`: the block has no fetch (10_state.md R21), the
command comes from the host's write to `CMD` (30_encoding.md R91), so that write is made the next
pending event (log 3). -/
def State.withFetchWord (s : State) (nbits w : Nat) : State := placeCommand s (w % 2 ^ nbits)

end Sys2Proof.Machine
end

