-- ==== Sys2Proof/Machine/Informative.lean ====
section
/-! DEFINITION. The informative algorithms of 40_modular.md R124 and R125. No command uses them ("A
model should implement rule R121, not this algorithm"); they are here so that their agreement with
the commands can be stated. -/

namespace Sys2Proof.Machine

/-- The usual Montgomery reduction for `a, b < N`, `N` odd, `R` a power of two (40_modular.md R124). -/
def redc (R N a b : Nat) : Except Failure Nat :=
  match invMod (N % R : Nat) R with
  | .error e => .error e
  | .ok ninv =>
    let N' := modN (-(ninv : Int)) R
    let T := a * b
    let q := T % R * N' % R
    let t := (T + q * N) / R
    .ok (if N ≤ t then t - N else t)

/-- `while r >= m: r <- r - m`, at most `fuel` passes (40_modular.md R125; log 16). -/
def subtractWhile : Nat → Nat → Nat → Nat
  | 0, r, _ => r
  | fuel + 1, r, m => if m ≤ r then subtractWhile fuel (r - m) m else r

/-- The usual Barrett reduction of `x < B = 2^(2W)`, with the correction loop cut off after `passes`
passes (40_modular.md R125; log 16). -/
def barrettEstimate (B passes x m : Nat) : Nat :=
  let mu := B / m
  let q := x * mu / B
  subtractWhile passes (x - q * m) m

end Sys2Proof.Machine
end

