-- ==== Sys2Proof/Machine/Script.lean ====
section
/-! DEFINITION. The command-script notation of 30_encoding.md R98: each line expands to host accesses.
It "adds nothing to the machine". `setpt` reads `PTAG` and writes it back, so its expansion takes the
value the host read (log 19). -/

namespace Sys2Proof.Machine

/-- The write of the word at window offset `off`. -/
def writeAt (c : Config) (off : Nat) (v : Word) : HostEvent := .write (c.base + off) 4 v

/-- The read of the word at window offset `off`. -/
def readAt (c : Config) (off : Nat) : HostEvent := .read (c.base + off) 4

/-- `wr REG, v`: the words of `v` from word 0 up (30_encoding.md R98). -/
def scriptWr (c : Config) (r : RegName) (v : Nat) : List HostEvent :=
  (List.range (regWords c)).map fun j => writeAt c (regOffset c r + 4 * j) (getWord v j)

/-- `wr PTAG, v`. -/
def scriptWrPtag (c : Config) (v : Word) : List HostEvent := [writeAt c 0x008 v]

/-- `cmdw v`: a raw command word. -/
def scriptCmdw (c : Config) (v : Word) : List HostEvent := [writeAt c 0x000 v]

/-- `cmd MNEMONIC`. -/
def scriptCmd (c : Config) (i : Instr) : List HostEvent := scriptCmdw c (encode i)

/-- `rd REG`: the reads; the value is `wordsValue` of what they are answered with. -/
def scriptRd (c : Config) (r : RegName) : List HostEvent :=
  (List.range (regWords c)).map fun j => readAt c (regOffset c r + 4 * j)

/-- `rd CMD`. -/
def scriptRdCmd (c : Config) : List HostEvent := [readAt c 0x000]

/-- `rd STATUS`. -/
def scriptRdStatus (c : Config) : List HostEvent := [readAt c 0x004]

/-- `rd PTAG`. -/
def scriptRdPtag (c : Config) : List HostEvent := [readAt c 0x008]

/-- `rd RTAG`. -/
def scriptRdRtag (c : Config) : List HostEvent := [readAt c 0x00C]

/-- The natural `Σ_j w_j * 2^(32*j)` that `rd REG` stands for (30_encoding.md R98). -/
def wordsValue : List Word → Nat
  | [] => 0
  | w :: ws => w.toNat + 2 ^ 32 * wordsValue ws

/-- The read-modify-write of `PTAG` that ends with writing `new`. -/
def scriptRmwPtag (c : Config) (new : Word) : List HostEvent := scriptRdPtag c ++ scriptWrPtag c new

/-- `setpt P1, Inf`, where `old` is what the host read from `PTAG`: sets `P1INF`. -/
def scriptSetP1Inf (c : Config) (old : Word) : List HostEvent := scriptRmwPtag c (old ||| 1#32)

/-- `setpt P2, Inf`: sets `P2INF`. -/
def scriptSetP2Inf (c : Config) (old : Word) : List HostEvent := scriptRmwPtag c (old ||| 2#32)

/-- `setpt P1, Aff(u, v)`: both coordinates, then `P1INF` is cleared. -/
def scriptSetP1 (c : Config) (u v : Nat) (old : Word) : List HostEvent :=
  scriptWr c .p1x u ++ scriptWr c .p1y v ++ scriptRmwPtag c (old &&& ~~~1#32)

/-- `setpt P2, Aff(u, v)`: both coordinates, then `P2INF` is cleared. -/
def scriptSetP2 (c : Config) (u v : Nat) (old : Word) : List HostEvent :=
  scriptWr c .p2x u ++ scriptWr c .p2y v ++ scriptRmwPtag c (old &&& ~~~2#32)

end Sys2Proof.Machine
end

