-- ==== Sys2Proof/Safety.lean ====
section
/-! DEFINITION. What the spec promises of every state of the block, in the terms statements use: the
invariant of the step, and which registers a command reads. -/

namespace Sys2Proof.Machine

/-- Every data register holds a natural number "in `[0, 2^W)`" (10_state.md R22). -/
def State.fits (s : State) : Prop := ∀ r : RegName, s.getReg r < 2 ^ s.cfg.width

/-- No point result and no Integer result is held. -/
def State.resultsZero (s : State) : Prop := s.res = 0 ∧ s.p3x = 0 ∧ s.p3y = 0 ∧ s.rtag = 0#32

/-- The commands of 40_modular.md. -/
def isModular : Instr → Bool
  | .montmul | .barrett | .modinv => true
  | .wAdd | .wDbl | .wSmul | .mAdd | .mSmul => false

/-- How `STATUS` and `CMD` go together (10_state.md R33, R37; 60_exceptions.md R200, R204): one of the
six words the block can report, each with what it says of the last command word. -/
inductive State.LastOutcome (s : State) : Prop where
  /-- No command has run since reset (R33). -/
  | none (hs : s.status = 0x00#32) (hc : s.cmd = 0#32) (hz : s.resultsZero)
  /-- The last command succeeded (R33); the results it does not name are zero (R91, R92). -/
  | ok (i : Instr) (hs : s.status = 0x10#32) (hd : decode s.cmd = .ok i)
      (hz : if isModular i then s.p3x = 0 ∧ s.p3y = 0 ∧ s.rtag = 0#32 else s.res = 0)
  | invalidModulus (i : Instr) (hs : s.status = 0x01#32) (hd : decode s.cmd = .ok i)
      (hz : s.resultsZero)
  /-- Never raised by MONTMUL or BARRETT (60_exceptions.md R200). -/
  | notInvertible (i : Instr) (hs : s.status = 0x02#32) (hd : decode s.cmd = .ok i)
      (hi : i ≠ .montmul ∧ i ≠ .barrett) (hz : s.resultsZero)
  | illegalCommand (e : DecodeError) (hs : s.status = 0x04#32) (hd : decode s.cmd = .error e)
      (hz : s.resultsZero)
  /-- Raised by curve commands only (60_exceptions.md R203). -/
  | badOperand (i : Instr) (hs : s.status = 0x05#32) (hd : decode s.cmd = .ok i)
      (hi : isModular i = false) (hz : s.resultsZero)

/-- The invariant of the machine. -/
structure State.Inv (s : State) : Prop where
  /-- `W` and `BASE` are legal parameters (00_scope.md R6, 20_memory.md R60). -/
  cfg : s.cfg.wf
  /-- every data register fits its width (10_state.md R22) -/
  fits : s.fits
  /-- `PTAG` bits 31:2 read as 0 (10_state.md R30, R34) -/
  ptag : s.ptag.toNat < 4
  /-- `RTAG` bits 31:1 read as 0 (10_state.md R31, R34) -/
  rtag : s.rtag.toNat < 2
  /-- `P3INF = 1` comes with `P3X = P3Y = 0` (10_state.md R31) -/
  infZero : s.p3inf = true → s.p3x = 0 ∧ s.p3y = 0
  /-- `STATUS`, `CMD` and the results go together -/
  outcome : s.LastOutcome

/-- A state some run of the machine from reset, with any parameters and any pending events, reaches. -/
inductive Reachable : State → Prop where
  | start (c : Config) (hc : c.wf) (events : List HostEvent) :
      Reachable { State.resetWith c with pending := events }
  | step (s t : State) (hs : Reachable s) (h : Machine.step s = .next t) : Reachable t

/-- The column "reads" of 10_state.md R28: two states agree on every register the command `i` reads.
The coordinates of a point operand tagged `Inf` are not read (R27). -/
def AgreeOnReads (i : Instr) (s t : State) : Prop :=
  s.cfg.width = t.cfg.width ∧ s.mod = t.mod ∧
  match i with
  | .montmul | .barrett => s.opa = t.opa ∧ s.opb = t.opb
  | .modinv => s.opa = t.opa
  | .wAdd => s.ca = t.ca ∧ s.point1 = t.point1 ∧ s.point2 = t.point2
  | .wDbl => s.ca = t.ca ∧ s.point1 = t.point1
  | .wSmul => s.ord = t.ord ∧ s.ca = t.ca ∧ s.k = t.k ∧ s.point1 = t.point1
  | .mAdd => s.ca = t.ca ∧ s.cb = t.cb ∧ s.point1 = t.point1 ∧ s.point2 = t.point2
  | .mSmul => s.ord = t.ord ∧ s.ca = t.ca ∧ s.cb = t.cb ∧ s.k = t.k ∧ s.point1 = t.point1

/-! What a command leaves, written out: every field not named keeps its value, so each of these is a
result and a frame in one. -/

/-- `s` after a write of `v` to `CMD` that ended with `STATUS = status` and no result (60_exceptions.md
R204). -/
def State.afterFailure (s : State) (v status : Word) : State :=
  { s with cmd := v, status := status, rtag := 0x0#32, res := 0, p3x := 0, p3y := 0 }

/-- `s` after the command word `v` succeeded with the Integer `n` (40_modular.md, "Status written"). -/
def State.afterInt (s : State) (v : Word) (n : Nat) : State :=
  { s with cmd := v, status := 0x10#32, rtag := 0x0#32, res := n, p3x := 0, p3y := 0 }

/-- `s` after the command word `v` succeeded with the point `P` (41_weierstrass.md, "Status
written"; 00_scope.md R12). -/
def State.afterPoint (s : State) (v : Word) (P : Point) : State :=
  match P with
  | .inf => { s with cmd := v, status := 0x10#32, rtag := 0x1#32, res := 0, p3x := 0, p3y := 0 }
  | .aff x y => { s with cmd := v, status := 0x10#32, rtag := 0x0#32, res := 0, p3x := x, p3y := y }

/-- Everything a command reports: `CMD`, `STATUS`, `RTAG` and the three result registers (10_state.md
R28). -/
def State.reported (s : State) : Word × Word × Word × Nat × Nat × Nat :=
  (s.cmd, s.status, s.rtag, s.res, s.p3x, s.p3y)

end Sys2Proof.Machine
end

