-- ==== Sys2Proof/Certificates/Slice0/Obligations.lean ====
section
/-! DEFINITION. The statements for the provers. `afterInt`, `afterPoint` and `afterFailure`
(Safety.lean) are whole records: they say what a command writes and, by the fields they do not name,
what it leaves unchanged. -/

open Sys2Proof Sys2Proof.Machine Host

/-! ## Encoding -/

/-- 30_encoding.md R94: the eight command words, written out bit by bit, decode to the eight commands. -/
def Obligations.OpcodeWordsDecode : Prop :=
  decode 0b00000000000000000000000000000001#32 = .ok .montmul ∧
  decode 0b00000000000000000000000000000010#32 = .ok .barrett ∧
  decode 0b00000000000000000000000000000011#32 = .ok .modinv ∧
  decode 0b00000000000000000000000000010000#32 = .ok .wAdd ∧
  decode 0b00000000000000000000000000010001#32 = .ok .wDbl ∧
  decode 0b00000000000000000000000000010010#32 = .ok .wSmul ∧
  decode 0b00000000000000000000000000100000#32 = .ok .mAdd ∧
  decode 0b00000000000000000000000000100010#32 = .ok .mSmul

/-- 30_encoding.md R99: `decode(encode(c)) = c` for each of the eight; and on bytes, with R97 "always
one 32-bit word" and the byte order of 20_memory.md R64. -/
def Obligations.DecodeOfEncode : Prop :=
  ∀ i : Instr, decode (encode i) = .ok i ∧
    ∀ rest : List Byte, decodeBytes (encodeBytes i ++ rest) = .ok (i, rest)

/-- 30_encoding.md R99: `encode(decode(v)) = v` whenever `decode(v)` is not `none`. -/
def Obligations.EncodeOfDecode : Prop :=
  ∀ (v : Word) (i : Instr), decode v = .ok i → encode i = v

/-- 30_encoding.md R96: the illegal words are exactly those with `RSV != 0` and those with `RSV = 0`
and an unassigned `OPC`. -/
def Obligations.IllegalWordsExactly : Prop :=
  ∀ v : Word, (∃ e, decode v = .error e) ↔
    (v.extractLsb' 8 24 ≠ 0#24 ∨
      v.extractLsb' 0 8 ∉
        [0x01#8, 0x02#8, 0x03#8, 0x10#8, 0x11#8, 0x12#8, 0x20#8, 0x22#8])

/-- 30_encoding.md R95: the decoder written from the table alone is `decode`, and no two rows of the
table overlap. -/
def Obligations.TableDecoderIsDecode : Prop :=
  (∀ v : Word, decodeByTable v = (decode v).toOption) ∧
  opcodeTable.Pairwise fun a b => ∀ v : Word, v &&& a.mask = a.pattern → v &&& b.mask ≠ b.pattern

/-! ## The step -/

/-- 30_encoding.md R91: when the next host access is the write of a command's word to `CMD`, the step
is that command at the state with the access taken. (That accesses are taken from `pending`: log 3.) -/
def Obligations.StepRunsDecodedCommand : Prop :=
  ∀ (s : State) (v : Word) (rest : List HostEvent) (i : Instr),
    s.pending = .write s.cfg.base 4 v :: rest → decode v = .ok i →
    step s = exec i { s with pending := rest }

/-- A word handed to the machine as its next command is run by the very next step, from any state. -/
def Obligations.FetchedWordRuns : Prop :=
  ∀ (i : Instr) (s : State),
    step (s.withFetchWord 32 (encode i).toNat) = exec i s ∧
    decodeTableWord 32 (encode i).toNat = some i

/-- 30_encoding.md R96: an illegal word is stored in `CMD`, clears the results and fails with
IllegalCommand, and changes nothing else. -/
def Obligations.IllegalWordReported : Prop :=
  ∀ (v : Word) (s : State),
    v ∉ [0x01#32, 0x02#32, 0x03#32, 0x10#32, 0x11#32, 0x12#32, 0x20#32, 0x22#32] →
    hostEvent (.write s.cfg.base 4 v) s = .next (s.afterFailure v 0x04#32)

/-- 70_reset_and_hazards.md R252: every command terminates, for every content of the registers, and so
does every admitted access. -/
def Obligations.EveryCommandTerminates : Prop :=
  (∀ (i : Instr) (s : State), ∃ t, exec i s = .next t) ∧
  ∀ (v : Word) (s : State), ∃ t, hostEvent (.write s.cfg.base 4 v) s = .next t

/-- 20_memory.md R65: exactly the aligned 32-bit accesses inside the window are admitted; every other
read or write is refused, with no step. -/
def Obligations.OnlyAdmittedAccessesStep : Prop :=
  ∀ (s : State) (addr bytes : Nat) (v : Word),
    let admitted := bytes = 4 ∧ s.cfg.base ≤ addr ∧
      addr < s.cfg.base + (0x100 + 14 * (s.cfg.width / 8)) ∧ (addr - s.cfg.base) % 4 = 0
    (admitted → (∃ t, hostEvent (.read addr bytes) s = .next t) ∧
      ∃ t, hostEvent (.write addr bytes v) s = .next t) ∧
    (¬ admitted → (∃ r, hostEvent (.read addr bytes) s = .refused r) ∧
      ∃ r, hostEvent (.write addr bytes v) s = .refused r)

/-- 20_memory.md R61: what a read of each word of the window returns, and that it changes nothing of
the block (`answers` is the host's record: log 4). -/
def Obligations.HostReadReturnsWord : Prop :=
  ∀ s : State, s.cfg.wf →
    let reads := fun (off : Nat) (w : Word) =>
      hostEvent (.read (s.cfg.base + off) 4) s = .next { s with answers := s.answers ++ [w] }
    reads 0x000 s.cmd ∧ reads 0x004 s.status ∧ reads 0x008 s.ptag ∧ reads 0x00C s.rtag ∧
    (∀ off, 0x010 ≤ off → off < 0x100 → off % 4 = 0 → reads off 0#32) ∧
    ∀ (r : RegName) (j : Nat), j < s.cfg.width / 32 →
      reads (0x100 + r.number * (s.cfg.width / 8) + 4 * j)
        (BitVec.ofNat 32 (s.getReg r / 2 ^ (32 * j)))

/-- 20_memory.md R62: what a write of each word of the window does. Bit `i` of an operand register
after word `j` is written is the written bit inside the word and the old bit outside it. -/
def Obligations.HostWriteStoresWord : Prop :=
  ∀ (s : State) (v : Word), s.cfg.wf →
    let writes := fun (off : Nat) (t : State) =>
      hostEvent (.write (s.cfg.base + off) 4 v) s = .next t
    hostEvent (.write (s.cfg.base + 0x000) 4 v) s = issue v s ∧
    writes 0x004 s ∧
    writes 0x008 { s with ptag := BitVec.ofNat 32 (v.toNat % 4) } ∧
    writes 0x00C s ∧
    (∀ off, 0x010 ≤ off → off < 0x100 → off % 4 = 0 → writes off s) ∧
    ∀ (r : RegName) (j : Nat), j < s.cfg.width / 32 →
      (r.number ≤ 10 → ∃ new, writes (0x100 + r.number * (s.cfg.width / 8) + 4 * j) (s.setReg r new) ∧
        ∀ i, new.testBit i =
          if 32 * j ≤ i ∧ i < 32 * j + 32 then v.getLsbD (i - 32 * j) else (s.getReg r).testBit i) ∧
      (11 ≤ r.number → writes (0x100 + r.number * (s.cfg.width / 8) + 4 * j) s)

/-- 20_memory.md R64: with R63, a `W`-bit register is a little-endian array of `W/8` bytes of the
window. -/
def Obligations.RegisterIsLittleEndianBytes : Prop :=
  ∀ (s : State) (r : RegName) (i : Nat), s.cfg.wf → i < s.cfg.width / 8 →
    windowByte s (0x100 + r.number * (s.cfg.width / 8) + 4 * (i / 4)) (i % 4) =
      BitVec.ofNat 8 (s.getReg r / 2 ^ (8 * i))

/-- 20_memory.md R67: writing the same value to the same word twice leaves the state that writing it
once leaves, at every offset, the write to `CMD` included. -/
def Obligations.WritesAreIdempotent : Prop :=
  ∀ (off : Nat) (v : Word) (s t : State), memWrite off v s = .next t → memWrite off v t = .next t

/-- With nothing pending the block is idle (60_exceptions.md R225). That an idle step leaves the state
as it is, is the model's choice (log 5). -/
def Obligations.IdleStepChangesNothing : Prop :=
  ∀ s : State, s.pending = [] → step s = .next s

/-- 70_reset_and_hazards.md R240, 10_state.md R37: a reset event zeroes every register. That it keeps
the parameters, the pending events and the answers is the model's choice (log 10). -/
def Obligations.ResetEventZeroesRegisters : Prop :=
  ∀ s : State, ∃ t, hostEvent .reset s = .next t ∧
    t.cmd = 0#32 ∧ t.status = 0#32 ∧ t.ptag = 0#32 ∧ t.rtag = 0#32 ∧ (∀ r, t.getReg r = 0) ∧
    t.cfg = s.cfg ∧ t.pending = s.pending ∧ t.answers = s.answers

/-- 10_state.md R37: after reset every register holds zero, so both point operands are affine,
`ERR` is `OK` and `RVALID` is 0. -/
def Obligations.ResetStateIsZero : Prop :=
  ∀ c : Config,
    let s := State.resetWith c
    s.cmd = 0#32 ∧ s.status = 0#32 ∧ s.ptag = 0#32 ∧ s.rtag = 0#32 ∧ (∀ r, s.getReg r = 0) ∧
    s.err = 0#4 ∧ s.rvalid = false ∧ s.point1 = .aff 0 0 ∧ s.point2 = .aff 0 0

/-- 10_state.md R38: a command issued straight after reset fails with InvalidModulus, an illegal word
with IllegalCommand. -/
def Obligations.FirstCommandAfterReset : Prop :=
  ∀ (c : Config) (v : Word),
    ((∃ i, decode v = .ok i) →
      issue v (State.resetWith c) = .next ((State.resetWith c).afterFailure v 0x01#32)) ∧
    ((∃ e, decode v = .error e) →
      issue v (State.resetWith c) = .next ((State.resetWith c).afterFailure v 0x04#32))

/-! ## The modular commands -/

/-- 40_modular.md R121: MONTMUL, its result and its failures. -/
def Obligations.MontmulComputes : Prop :=
  ∀ s : State,
    (s.mod % 2 = 1 → ∃ rinv, rinv < s.mod ∧ 2 ^ s.cfg.width % s.mod * rinv % s.mod = 1 % s.mod ∧
      exec .montmul s = .next (s.afterInt 0x01#32 (s.opa * s.opb * rinv % s.mod))) ∧
    (s.mod = 0 ∨ s.mod % 2 = 0 → exec .montmul s = .next (s.afterFailure 0x01#32 0x01#32))

/-- 40_modular.md R121, corner cases: the result times `R` is the product modulo `N`, and "the product
of two Montgomery forms is the Montgomery form of the product". -/
def Obligations.MontmulKeepsMontgomeryForm : Prop :=
  ∀ s : State, s.mod % 2 = 1 → ∃ n, n < s.mod ∧ exec .montmul s = .next (s.afterInt 0x01#32 n) ∧
    n * 2 ^ s.cfg.width % s.mod = s.opa * s.opb % s.mod ∧
    ∀ a b : Nat, s.opa % s.mod = a * 2 ^ s.cfg.width % s.mod →
      s.opb % s.mod = b * 2 ^ s.cfg.width % s.mod → n = a * b * 2 ^ s.cfg.width % s.mod

/-- 40_modular.md R122: BARRETT, its result and its failure. -/
def Obligations.BarrettComputes : Prop :=
  ∀ s : State,
    (0 < s.mod → exec .barrett s =
      .next (s.afterInt 0x02#32 ((s.opb * 2 ^ s.cfg.width + s.opa) % s.mod))) ∧
    (s.mod = 0 → exec .barrett s = .next (s.afterFailure 0x02#32 0x01#32))

/-- 40_modular.md R123: MODINV, "the unique `x` in `[0, m)` with `a * x ≡ 1 (mod m)`", and its
failures in the order tested. -/
def Obligations.ModinvComputes : Prop :=
  ∀ s : State,
    (s.mod = 0 → exec .modinv s = .next (s.afterFailure 0x03#32 0x01#32)) ∧
    (0 < s.mod → Nat.gcd s.opa s.mod ≠ 1 →
      exec .modinv s = .next (s.afterFailure 0x03#32 0x02#32)) ∧
    (0 < s.mod → Nat.gcd s.opa s.mod = 1 → ∃ x, exec .modinv s = .next (s.afterInt 0x03#32 x) ∧
      x < s.mod ∧ s.opa * x % s.mod = 1 % s.mod ∧
      ∀ y, y < s.mod → s.opa * y % s.mod = 1 % s.mod → y = x)

/-- 40_modular.md R126: `extended_gcd(a, b)` returns the gcd and Bézout coefficients. -/
def Obligations.ExtendedGcdIsBezout : Prop :=
  ∀ (a b : Nat), ∃ x y : Int, extendedGcd a b = (Nat.gcd a b, x, y) ∧ a * x + b * y = Nat.gcd a b

/-- 40_modular.md R128: `inv_mod` is `mod_inverse` of the residue, raises NotInvertible exactly when
the residue is not coprime to `m`, and otherwise inverts. -/
def Obligations.InvModInverts : Prop :=
  ∀ (d : Int) (m : Nat), 0 < m →
    invMod d m = modInverse (modN d m) m ∧
    (Nat.gcd (modN d m) m = 1 → ∃ r, invMod d m = .ok r ∧ r < m ∧ d * r ≡ 1 [ZMOD m]) ∧
    (Nat.gcd (modN d m) m ≠ 1 → invMod d m = .error .notInvertible) ∧
    (modN d m = 0 → 1 < m → invMod d m = .error .notInvertible) ∧
    (m = 1 → invMod d m = .ok 0)

/-- 40_modular.md R130: `modpow`. -/
def Obligations.ModpowComputesPower : Prop :=
  ∀ (base exponent : Nat) (modulus : Int),
    (modulus ≤ 0 → modpow base exponent modulus = .error .invalidModulus) ∧
    (0 < modulus → ∃ v : Nat, modpow base exponent modulus = .ok v ∧ v < modulus ∧
      (v : Int) = (base : Int) ^ exponent % modulus)

/-- 40_modular.md R124 (informative): the usual Montgomery reduction computes MONTMUL for operands
below the modulus. -/
def Obligations.RedcAgreesWithMontmul : Prop :=
  ∀ (W N a b : Nat), N % 2 = 1 → N < 2 ^ W → a < N → b < N →
    redc (2 ^ W) N a b = montmul (2 ^ W) a b N

/-- 40_modular.md R125 (informative): the usual Barrett reduction computes BARRETT, and one correction
pass is enough. -/
def Obligations.BarrettEstimateAgreesWithBarrett : Prop :=
  ∀ (W x m passes : Nat), 0 < m → x < 2 ^ (2 * W) → 1 ≤ passes →
    barrett x m = .ok (barrettEstimate (2 ^ (2 * W)) passes x m)

/-! ## The short-Weierstrass curve -/

/-- 41_weierstrass.md R159: every row of the case table of `w_add`, with the formulas of R152. -/
def Obligations.WeierstrassAddCases : Prop :=
  ∀ (a p : Nat), 0 < p →
    (∀ Q, wAdd .inf Q a p = .ok Q) ∧ (∀ P, wAdd P .inf a p = .ok P) ∧
    ∀ x1 y1 x2 y2 : Nat, x1 < p → y1 < p → x2 < p → y2 < p →
      (x1 = x2 → (y1 + y2) % p = 0 → wAdd (.aff x1 y1) (.aff x2 y2) a p = .ok .inf) ∧
      (x1 = x2 → y1 = y2 → 2 * y1 % p ≠ 0 →
        (Nat.gcd (2 * y1 % p) p ≠ 1 →
          wAdd (.aff x1 y1) (.aff x2 y2) a p = .error .notInvertible) ∧
        (Nat.gcd (2 * y1 % p) p = 1 → ∃ lam x3 y3 : Nat,
          lam * (2 * y1) ≡ 3 * x1 * x1 + a [MOD p] ∧ x3 < p ∧ y3 < p ∧
          wAdd (.aff x1 y1) (.aff x2 y2) a p = .ok (.aff x3 y3) ∧
          (x3 : Int) ≡ lam * lam - x1 - x2 [ZMOD p] ∧
          (y3 : Int) ≡ lam * ((x1 : Int) - x3) - y1 [ZMOD p])) ∧
      (x1 = x2 → y1 ≠ y2 → (y1 + y2) % p ≠ 0 →
        wAdd (.aff x1 y1) (.aff x2 y2) a p = .error .notInvertible) ∧
      (x1 ≠ x2 →
        (Nat.gcd (modN ((x2 : Int) - x1) p) p ≠ 1 →
          wAdd (.aff x1 y1) (.aff x2 y2) a p = .error .notInvertible) ∧
        (Nat.gcd (modN ((x2 : Int) - x1) p) p = 1 → ∃ lam x3 y3 : Nat,
          (lam : Int) * ((x2 : Int) - x1) ≡ (y2 : Int) - y1 [ZMOD p] ∧ x3 < p ∧ y3 < p ∧
          wAdd (.aff x1 y1) (.aff x2 y2) a p = .ok (.aff x3 y3) ∧
          (x3 : Int) ≡ lam * lam - x1 - x2 [ZMOD p] ∧
          (y3 : Int) ≡ lam * ((x1 : Int) - x3) - y1 [ZMOD p]))

/-- 41_weierstrass.md R153: W_ADD, its result and its failures. -/
def Obligations.WAddCommand : Prop :=
  ∀ s : State,
    (s.mod = 0 → exec .wAdd s = .next (s.afterFailure 0x10#32 0x01#32)) ∧
    (0 < s.mod → s.point1.inRange s.mod = false ∨ s.point2.inRange s.mod = false →
      exec .wAdd s = .next (s.afterFailure 0x10#32 0x05#32)) ∧
    (0 < s.mod → s.point1.inRange s.mod = true → s.point2.inRange s.mod = true →
      (∀ Q, wAdd s.point1 s.point2 s.ca s.mod = .ok Q →
        exec .wAdd s = .next (s.afterPoint 0x10#32 Q)) ∧
      ∀ e, wAdd s.point1 s.point2 s.ca s.mod = .error e →
        exec .wAdd s = .next (s.afterFailure 0x10#32 0x02#32))

/-- 41_weierstrass.md R154: W_DBL, its result with the doubling formula written out, its corner cases
and its failures. -/
def Obligations.WDblCommand : Prop :=
  ∀ s : State,
    (s.mod = 0 → exec .wDbl s = .next (s.afterFailure 0x11#32 0x01#32)) ∧
    (0 < s.mod → s.p1inf = true → exec .wDbl s = .next (s.afterPoint 0x11#32 .inf)) ∧
    (0 < s.mod → s.p1inf = false →
      (s.mod ≤ s.p1x ∨ s.mod ≤ s.p1y → exec .wDbl s = .next (s.afterFailure 0x11#32 0x05#32)) ∧
      (s.p1x < s.mod → s.p1y < s.mod →
        (2 * s.p1y % s.mod = 0 → exec .wDbl s = .next (s.afterPoint 0x11#32 .inf)) ∧
        (2 * s.p1y % s.mod ≠ 0 → Nat.gcd (2 * s.p1y % s.mod) s.mod ≠ 1 →
          exec .wDbl s = .next (s.afterFailure 0x11#32 0x02#32)) ∧
        (2 * s.p1y % s.mod ≠ 0 → Nat.gcd (2 * s.p1y % s.mod) s.mod = 1 → ∃ lam x3 y3 : Nat,
          exec .wDbl s = .next (s.afterPoint 0x11#32 (.aff x3 y3)) ∧ x3 < s.mod ∧ y3 < s.mod ∧
          lam * (2 * s.p1y) ≡ 3 * s.p1x * s.p1x + s.ca [MOD s.mod] ∧
          (x3 : Int) ≡ lam * lam - s.p1x - s.p1x [ZMOD s.mod] ∧
          (y3 : Int) ≡ lam * ((s.p1x : Int) - x3) - s.p1y [ZMOD s.mod])))

/-- 41_weierstrass.md R154: "The outcome of `W_DBL` is by definition the outcome of `W_ADD` with `P2`
equal to `P1`" (apart from the command word in `CMD`). -/
def Obligations.WDblIsWAddOfItself : Prop :=
  ∀ s : State,
    let s2 : State :=
      { s with ptag := if s.p1inf then 0x3#32 else 0x0#32, p2x := s.p1x, p2y := s.p1y }
    ∃ t u, exec .wDbl s = .next t ∧ exec .wAdd s2 = .next u ∧
      t.status = u.status ∧ t.point3 = u.point3 ∧ t.rtag = u.rtag ∧
      t.res = u.res ∧ t.p3x = u.p3x ∧ t.p3y = u.p3y

/-- 41_weierstrass.md R155: W_SMUL, its result and its failures. -/
def Obligations.WSmulCommand : Prop :=
  ∀ s : State,
    (s.mod = 0 ∨ s.ord = 0 → exec .wSmul s = .next (s.afterFailure 0x12#32 0x01#32)) ∧
    (0 < s.mod → 0 < s.ord → s.point1.inRange s.mod = false →
      exec .wSmul s = .next (s.afterFailure 0x12#32 0x05#32)) ∧
    (0 < s.mod → 0 < s.ord → s.point1.inRange s.mod = true →
      (∀ Q, (doubleAndAdd s.k s.point1 s.ord fun Q1 Q2 => wAdd Q1 Q2 s.ca s.mod) = .ok Q →
        exec .wSmul s = .next (s.afterPoint 0x12#32 Q)) ∧
      ∀ e, (doubleAndAdd s.k s.point1 s.ord fun Q1 Q2 => wAdd Q1 Q2 s.ca s.mod) = .error e →
        exec .wSmul s = .next (s.afterFailure 0x12#32 0x02#32))

/-- 41_weierstrass.md R155, corner cases: the small multiples of W_SMUL, with no premise on the curve. -/
def Obligations.WSmulSmallMultiples : Prop :=
  ∀ s : State, 0 < s.mod → 0 < s.ord → s.point1.inRange s.mod = true →
    (s.k % s.ord = 0 ∨ s.point1 = .inf → exec .wSmul s = .next (s.afterPoint 0x12#32 .inf)) ∧
    (s.k % s.ord = 1 → exec .wSmul s = .next (s.afterPoint 0x12#32 s.point1)) ∧
    (s.k % s.ord = 2 → ∃ t u, exec .wSmul s = .next t ∧ exec .wDbl s = .next u ∧
      t.status = u.status ∧ t.rtag = u.rtag ∧ t.p3x = u.p3x ∧ t.p3y = u.p3y) ∧
    ∃ t u, exec .wSmul s = .next t ∧ exec .wSmul { s with k := s.k % s.ord } = .next u ∧
      t.status = u.status ∧ t.rtag = u.rtag ∧ t.p3x = u.p3x ∧ t.p3y = u.p3y

/-- 41_weierstrass.md R158, R159: over a prime field, `w_add` of two on-curve points does not fail and
is on the curve. -/
def Obligations.WeierstrassAddStaysOnCurve : Prop :=
  ∀ (p a b : Nat) (P Q : Point), p.Prime →
    P.inRange p = true → Q.inRange p = true →
    wIsOnCurve P a b p = true → wIsOnCurve Q a b p = true →
    ∃ R, wAdd P Q a p = .ok R ∧ R.inRange p = true ∧ wIsOnCurve R a b p = true

/-- 41_weierstrass.md R158, R159 for the three commands: with a prime `MOD` and on-curve operands each
completes with an on-curve point. -/
def Obligations.WeierstrassCommandsComplete : Prop :=
  ∀ (s : State) (b : Nat), s.mod.Prime →
    s.point1.inRange s.mod = true → wIsOnCurve s.point1 s.ca b s.mod = true →
    (∃ Q, exec .wDbl s = .next (s.afterPoint 0x11#32 Q) ∧ wIsOnCurve Q s.ca b s.mod = true) ∧
    (0 < s.ord →
      ∃ Q, exec .wSmul s = .next (s.afterPoint 0x12#32 Q) ∧ wIsOnCurve Q s.ca b s.mod = true) ∧
    (s.point2.inRange s.mod = true → wIsOnCurve s.point2 s.ca b s.mod = true →
      ∃ Q, exec .wAdd s = .next (s.afterPoint 0x10#32 Q) ∧ wIsOnCurve Q s.ca b s.mod = true)

/-- 41_weierstrass.md R158: scalar multiplication distributes over addition modulo the order, on a
non-singular curve over a prime field. The premise says `n·P = Inf`: the scalar `n` reduced modulo
`n + 1` is `n` itself (the model's choice: log 18). -/
def Obligations.WeierstrassScalarDistributes : Prop :=
  ∀ (p a b n : Nat) (P : Point), p.Prime → 16 * (4 * a ^ 3 + 27 * b ^ 2) % p ≠ 0 →
    P.inRange p = true → wIsOnCurve P a b p = true → 0 < n →
    (doubleAndAdd n P (n + 1) fun Q1 Q2 => wAdd Q1 Q2 a p) = .ok .inf →
    ∀ j k : Nat, ∃ Q R S,
      (doubleAndAdd j P n fun Q1 Q2 => wAdd Q1 Q2 a p) = .ok Q ∧
      (doubleAndAdd k P n fun Q1 Q2 => wAdd Q1 Q2 a p) = .ok R ∧
      (doubleAndAdd (j + k) P n fun Q1 Q2 => wAdd Q1 Q2 a p) = .ok S ∧
      wAdd Q R a p = .ok S

/-! ## The Montgomery curve -/

/-- 42_montgomery_curve.md R185: every row of the case table of `m_add`, with the formulas of R182. -/
def Obligations.MontgomeryAddCases : Prop :=
  ∀ (A B p : Nat), 0 < p →
    (∀ Q, mAdd .inf Q A B p = .ok Q) ∧ (∀ P, mAdd P .inf A B p = .ok P) ∧
    ∀ x1 y1 x2 y2 : Nat, x1 < p → y1 < p → x2 < p → y2 < p →
      (x1 = x2 → (y1 + y2) % p = 0 → mAdd (.aff x1 y1) (.aff x2 y2) A B p = .ok .inf) ∧
      (x1 = x2 → y1 = y2 → 2 * y1 % p ≠ 0 →
        (Nat.gcd (2 * B * y1 % p) p ≠ 1 →
          mAdd (.aff x1 y1) (.aff x2 y2) A B p = .error .notInvertible) ∧
        (Nat.gcd (2 * B * y1 % p) p = 1 → ∃ lam x3 y3 : Nat,
          lam * (2 * B * y1) ≡ 3 * x1 * x1 + 2 * A * x1 + 1 [MOD p] ∧ x3 < p ∧ y3 < p ∧
          mAdd (.aff x1 y1) (.aff x2 y2) A B p = .ok (.aff x3 y3) ∧
          (x3 : Int) ≡ B * lam * lam - A - x1 - x2 [ZMOD p] ∧
          (y3 : Int) ≡ lam * ((x1 : Int) - x3) - y1 [ZMOD p])) ∧
      (x1 = x2 → y1 ≠ y2 → (y1 + y2) % p ≠ 0 →
        mAdd (.aff x1 y1) (.aff x2 y2) A B p = .error .notInvertible) ∧
      (x1 ≠ x2 →
        (Nat.gcd (modN ((x2 : Int) - x1) p) p ≠ 1 →
          mAdd (.aff x1 y1) (.aff x2 y2) A B p = .error .notInvertible) ∧
        (Nat.gcd (modN ((x2 : Int) - x1) p) p = 1 → ∃ lam x3 y3 : Nat,
          (lam : Int) * ((x2 : Int) - x1) ≡ (y2 : Int) - y1 [ZMOD p] ∧ x3 < p ∧ y3 < p ∧
          mAdd (.aff x1 y1) (.aff x2 y2) A B p = .ok (.aff x3 y3) ∧
          (x3 : Int) ≡ B * lam * lam - A - x1 - x2 [ZMOD p] ∧
          (y3 : Int) ≡ lam * ((x1 : Int) - x3) - y1 [ZMOD p]))

/-- 42_montgomery_curve.md R183: M_ADD, its result and its failures. -/
def Obligations.MAddCommand : Prop :=
  ∀ s : State,
    (s.mod = 0 → exec .mAdd s = .next (s.afterFailure 0x20#32 0x01#32)) ∧
    (0 < s.mod → s.point1.inRange s.mod = false ∨ s.point2.inRange s.mod = false →
      exec .mAdd s = .next (s.afterFailure 0x20#32 0x05#32)) ∧
    (0 < s.mod → s.point1.inRange s.mod = true → s.point2.inRange s.mod = true →
      (∀ Q, mAdd s.point1 s.point2 s.ca s.cb s.mod = .ok Q →
        exec .mAdd s = .next (s.afterPoint 0x20#32 Q)) ∧
      ∀ e, mAdd s.point1 s.point2 s.ca s.cb s.mod = .error e →
        exec .mAdd s = .next (s.afterFailure 0x20#32 0x02#32))

/-- 42_montgomery_curve.md R184: M_SMUL, its result and its failures. -/
def Obligations.MSmulCommand : Prop :=
  ∀ s : State,
    (s.mod = 0 ∨ s.ord = 0 → exec .mSmul s = .next (s.afterFailure 0x22#32 0x01#32)) ∧
    (0 < s.mod → 0 < s.ord → s.point1.inRange s.mod = false →
      exec .mSmul s = .next (s.afterFailure 0x22#32 0x05#32)) ∧
    (0 < s.mod → 0 < s.ord → s.point1.inRange s.mod = true →
      (∀ Q, (doubleAndAdd s.k s.point1 s.ord fun Q1 Q2 => mAdd Q1 Q2 s.ca s.cb s.mod) = .ok Q →
        exec .mSmul s = .next (s.afterPoint 0x22#32 Q)) ∧
      ∀ e, (doubleAndAdd s.k s.point1 s.ord fun Q1 Q2 => mAdd Q1 Q2 s.ca s.cb s.mod) = .error e →
        exec .mSmul s = .next (s.afterFailure 0x22#32 0x02#32))

/-- 42_montgomery_curve.md R184, corner cases: the small multiples of M_SMUL, with no premise on the
curve; the double is M_ADD with `P2 = P1`. -/
def Obligations.MSmulSmallMultiples : Prop :=
  ∀ s : State, 0 < s.mod → 0 < s.ord → s.point1.inRange s.mod = true →
    (s.k % s.ord = 0 ∨ s.point1 = .inf → exec .mSmul s = .next (s.afterPoint 0x22#32 .inf)) ∧
    (s.k % s.ord = 1 → exec .mSmul s = .next (s.afterPoint 0x22#32 s.point1)) ∧
    (s.k % s.ord = 2 → s.point2 = s.point1 → ∃ t u, exec .mSmul s = .next t ∧ exec .mAdd s = .next u ∧
      t.status = u.status ∧ t.rtag = u.rtag ∧ t.p3x = u.p3x ∧ t.p3y = u.p3y) ∧
    ∃ t u, exec .mSmul s = .next t ∧ exec .mSmul { s with k := s.k % s.ord } = .next u ∧
      t.status = u.status ∧ t.rtag = u.rtag ∧ t.p3x = u.p3x ∧ t.p3y = u.p3y

/-- 42_montgomery_curve.md R187, with R185: over a prime field with `B` not zero, `m_add` of two
on-curve points does not fail and is on the curve. -/
def Obligations.MontgomeryAddStaysOnCurve : Prop :=
  ∀ (p A B : Nat) (P Q : Point), p.Prime → B % p ≠ 0 →
    P.inRange p = true → Q.inRange p = true →
    mIsOnCurve P A B p = true → mIsOnCurve Q A B p = true →
    ∃ R, mAdd P Q A B p = .ok R ∧ R.inRange p = true ∧ mIsOnCurve R A B p = true

/-- 42_montgomery_curve.md R187, R185 for the two commands. -/
def Obligations.MontgomeryCommandsComplete : Prop :=
  ∀ s : State, s.mod.Prime → s.cb % s.mod ≠ 0 →
    s.point1.inRange s.mod = true → mIsOnCurve s.point1 s.ca s.cb s.mod = true →
    (0 < s.ord →
      ∃ Q, exec .mSmul s = .next (s.afterPoint 0x22#32 Q) ∧ mIsOnCurve Q s.ca s.cb s.mod = true) ∧
    (s.point2.inRange s.mod = true → mIsOnCurve s.point2 s.ca s.cb s.mod = true →
      ∃ Q, exec .mAdd s = .next (s.afterPoint 0x20#32 Q) ∧ mIsOnCurve Q s.ca s.cb s.mod = true)

/-- 42_montgomery_curve.md R187: scalar multiplication distributes over addition modulo the order,
over a prime field with `B·(A² − 4)` not zero, `p = 2` included. That `n` is an order of `P` is said by
`n·P = Inf`, at the order `n + 1`, which leaves the scalar `n` as it is (the model's choice: log 18). -/
def Obligations.MontgomeryScalarDistributes : Prop :=
  ∀ (p A B n : Nat) (P : Point), p.Prime →
    modN ((B : Int) * ((A : Int) ^ 2 - 4)) p ≠ 0 →
    P.inRange p = true → mIsOnCurve P A B p = true → 0 < n →
    (doubleAndAdd n P (n + 1) fun Q1 Q2 => mAdd Q1 Q2 A B p) = .ok .inf →
    ∀ j k : Nat, ∃ Q R S,
      (doubleAndAdd j P n fun Q1 Q2 => mAdd Q1 Q2 A B p) = .ok Q ∧
      (doubleAndAdd k P n fun Q1 Q2 => mAdd Q1 Q2 A B p) = .ok R ∧
      (doubleAndAdd (j + k) P n fun Q1 Q2 => mAdd Q1 Q2 A B p) = .ok S ∧
      mAdd Q R A B p = .ok S

/-! ## Both curves -/

/-- Both group laws are commutative in value and in failure, on all operands in range, with no premise
on the curve (41_weierstrass.md R158 states it of `Infinity`). -/
def Obligations.PointAdditionCommutes : Prop :=
  ∀ (p : Nat) (P Q : Point), 0 < p → P.inRange p = true → Q.inRange p = true →
    (∀ a, wAdd P Q a p = wAdd Q P a p) ∧ ∀ A B, mAdd P Q A B p = mAdd Q P A B p

/-- 41_weierstrass.md R157: `double_and_add` computes the multiple by `k mod n` wherever `add` is a
group law that does not fail: in any monoid `G` that the points of a set `S` represent. -/
def Obligations.DoubleAndAddIsMultiple : Prop :=
  ∀ (G : Type) (_ : AddMonoid G) (S : Point → Prop) (f : Point → G)
    (add : Point → Point → Except Failure Point) (k n : Nat) (P : Point),
    0 < n → S .inf → f .inf = 0 → S P →
    (∀ Q R, S Q → S R → ∃ T, add Q R = .ok T ∧ S T ∧ f T = f Q + f R) →
    ∃ T, doubleAndAdd k P n add = .ok T ∧ S T ∧ f T = (k % n) • f P

/-- 41_weierstrass.md R157: "Starting the loop at a fixed bit `W - 1` instead of `bitlen(kr) - 1`
gives the same result". -/
def Obligations.DoubleAndAddLeadingZeros : Prop :=
  ∀ (kr w : Nat) (P : Point) (add : Point → Point → Except Failure Point),
    add .inf .inf = .ok .inf → kr < 2 ^ w →
    doubleAndAddLoop kr P add w .inf = doubleAndAddLoop kr P add (bitlen kr) .inf

/-! ## Failures, frames, what a command may depend on -/

/-- 60_exceptions.md R205: the one failure a write to `CMD` reports, in the fixed order of tests. -/
def Obligations.FailurePriority : Prop :=
  ∀ (v : Word) (s t : State), issue v s = .next t →
    ((∃ e, decode v = .error e) → t.status = 0x04#32) ∧
    ∀ i, decode v = .ok i →
      (s.mod = 0 → t.status = 0x01#32) ∧
      (s.mod ≠ 0 → i = .montmul ∧ s.mod % 2 = 0 → t.status = 0x01#32) ∧
      (s.mod ≠ 0 → (i = .wSmul ∨ i = .mSmul) ∧ s.ord = 0 → t.status = 0x01#32) ∧
      (s.mod ≠ 0 → ¬ ((i = .wSmul ∨ i = .mSmul) ∧ s.ord = 0) →
        isModular i = false ∧ s.point1.inRange s.mod = false → t.status = 0x05#32) ∧
      (s.mod ≠ 0 → (i = .wAdd ∨ i = .mAdd) ∧ s.point1.inRange s.mod = true ∧
        s.point2.inRange s.mod = false → t.status = 0x05#32) ∧
      (s.mod ≠ 0 → ¬ (i = .montmul ∧ s.mod % 2 = 0) → ¬ ((i = .wSmul ∨ i = .mSmul) ∧ s.ord = 0) →
        ¬ (isModular i = false ∧ s.point1.inRange s.mod = false) →
        ¬ ((i = .wAdd ∨ i = .mAdd) ∧ s.point2.inRange s.mod = false) →
        t.status = 0x10#32 ∨ t.status = 0x02#32 ∧ i ≠ .montmul ∧ i ≠ .barrett)

/-- 60_exceptions.md R204: a failed write to `CMD` leaves the word in `CMD`, the results zero, the
code in `ERR`, `RVALID` 0, and everything else unchanged: no partial effect. -/
def Obligations.FailureHasNoPartialEffect : Prop :=
  ∀ (v : Word) (s t : State), issue v s = .next t → t.rvalid = false →
    t = s.afterFailure v t.status ∧ ∃ k : Failure, t.status = k.code.setWidth 32

/-- 10_state.md R22, 30_encoding.md R92: no write to `CMD` changes an operand register or `PTAG`. -/
def Obligations.CommandsKeepOperands : Prop :=
  ∀ (v : Word) (s t : State), issue v s = .next t →
    t.cmd = v ∧ t.ptag = s.ptag ∧ (∀ r : RegName, r.number ≤ 10 → t.getReg r = s.getReg r) ∧
    t.cfg = s.cfg ∧ t.pending = s.pending ∧ t.answers = s.answers

/-- 10_state.md R28, R35: a command's outcome depends on the registers it reads and on nothing else,
so nothing an earlier command computed is observed. -/
def Obligations.CommandReadsOnlyItsOperands : Prop :=
  ∀ (i : Instr) (s t : State), AgreeOnReads i s t →
    ∃ s' t', exec i s = .next s' ∧ exec i t = .next t' ∧ s'.reported = t'.reported

/-- 40_modular.md R120: an Integer result lies in `[0, m)`, and the coordinates of a point result that
is computed from operands in range lie in `[0, p)`. -/
def Obligations.ResultsAreResidues : Prop :=
  ∀ (i : Instr) (s t : State), exec i s = .next t → t.rvalid = true →
    (isModular i = true → t.res < s.mod) ∧
    (isModular i = false → t.point3.inRange s.mod = true)

/-- 70_reset_and_hazards.md R241: reset is the only way, other than host writes, that an operand
register or `PTAG` changes, and the only way, other than a command, that `STATUS`, `RTAG` and the
result registers change. (That events are taken from `pending`: log 3.) -/
def Obligations.OnlyWritesAndResetChangeState : Prop :=
  ∀ s t : State, s.cfg.wf → step s = .next t →
    (∀ r : RegName, r.number ≤ 10 → t.getReg r ≠ s.getReg r →
      ∃ rest, s.pending = .reset :: rest ∨ ∃ j v, j < s.cfg.width / 32 ∧
        s.pending =
          .write (s.cfg.base + (0x100 + r.number * (s.cfg.width / 8) + 4 * j)) 4 v :: rest) ∧
    (t.ptag ≠ s.ptag →
      ∃ rest, s.pending = .reset :: rest ∨ ∃ v, s.pending = .write (s.cfg.base + 0x008) 4 v :: rest) ∧
    (t.cmd ≠ s.cmd ∨ t.status ≠ s.status ∨ t.rtag ≠ s.rtag ∨ t.res ≠ s.res ∨ t.p3x ≠ s.p3x ∨
        t.p3y ≠ s.p3y →
      ∃ rest, s.pending = .reset :: rest ∨ ∃ v, s.pending = .write (s.cfg.base + 0x000) 4 v :: rest)

/-! ## The invariant -/

/-- The invariant holds right after reset, for every legal choice of parameters. -/
def Obligations.ResetStateHasInvariant : Prop :=
  State.reset.Inv ∧ ∀ c : Config, c.wf → (State.resetWith c).Inv

/-- Every step keeps the invariant: registers fit their width, reserved bits read as zero, and
`STATUS`, `CMD`, `RTAG` and the result registers go together (10_state.md R22, R30, R31, R33, R34). -/
def Obligations.StepKeepsInvariant : Prop :=
  ∀ s t : State, s.Inv → step s = .next t → t.Inv

/-- 60_exceptions.md R207: "a model may prove `STATUS.ERR != 3` always"; with 10_state.md R33,
"values 6 to 15 are never produced" and "`RVALID = 1` implies `ERR = 0`". -/
def Obligations.NoValidPointNeverReported : Prop :=
  ∀ s : State, Reachable s →
    s.err ≠ 3#4 ∧ s.err.toNat ≤ 5 ∧ (s.rvalid = true → s.err = 0#4) ∧
    (s.rvalid = false → s.resultsZero) ∧ (s.rvalid = false → s.err = 0#4 → s.cmd = 0#32)

/-- No step changes the parameters `W` and `BASE`: the configuration "is not state" (10_state.md R20;
that State carries it is log 1). -/
def Obligations.StepKeepsParameters : Prop :=
  ∀ s t : State, step s = .next t → t.cfg = s.cfg

/-! ## The script notation -/

/-- 30_encoding.md R98: `wr REG, v` stores `v` in the register, word by word, and changes nothing
else (20_memory.md R63, R66). That a line is a list of events (log 19), and that events are taken from
`pending` (log 3), is the model's choice. -/
def Obligations.ScriptWrStoresRegister : Prop :=
  ∀ (s : State) (r : RegName) (v : Nat) (rest : List HostEvent), s.cfg.wf → r.number ≤ 10 →
    s.getReg r < 2 ^ s.cfg.width → v < 2 ^ s.cfg.width →
    s.pending = scriptWr s.cfg r v ++ rest →
    core.run (s.cfg.width / 32) s = .next (({ s with pending := rest } : State).setReg r v)

/-- 30_encoding.md R98: `rd REG` answers with words whose natural is the register's value, and changes
nothing of the block. That a line is a list of events (log 19), that events are taken from `pending`
(log 3), and that the words read are appended to `answers` (log 4), is the model's choice. -/
def Obligations.ScriptRdReturnsRegister : Prop :=
  ∀ (s : State) (r : RegName) (rest : List HostEvent), s.cfg.wf → s.getReg r < 2 ^ s.cfg.width →
    s.pending = scriptRd s.cfg r ++ rest →
    ∃ ws, wordsValue ws = s.getReg r ∧ core.run (s.cfg.width / 32) s =
      .next { s with pending := rest, answers := s.answers ++ ws }
end

