-- ==== Sys2Proof/Laws/Arith.lean ====
section
/-! SUPPORT. What the arithmetic functions of Machine/Arith.lean do, each said once. -/

namespace Sys2Proof.Machine

/-! Floored remainder. -/

theorem modN_cast (v : Int) {m : Nat} (hm : 0 < m) : (modN v m : Int) = v % m :=
  Int.toNat_of_nonneg (Int.emod_nonneg v (by omega))

theorem modN_lt (v : Int) {m : Nat} (hm : 0 < m) : modN v m < m := by
  have h := Int.emod_lt_of_pos v (b := (m : Int)) (by omega)
  have h' := modN_cast v hm
  omega

theorem modN_natCast (v m : Nat) : modN (v : Int) m = v % m := by
  rw [modN, ← Int.natCast_emod, Int.toNat_natCast]

theorem modN_emod_eq (v : Int) {m : Nat} (hm : 0 < m) : (modN v m : Int) ≡ v [ZMOD m] := by
  rw [modN_cast v hm]
  exact Int.mod_modEq v m

/-! Bit length and bits. -/

theorem bitlen_zero : bitlen 0 = 0 := rfl

theorem bitlen_le_iff (v n : Nat) : bitlen v ≤ n ↔ v < 2 ^ n := by
  unfold bitlen
  split
  · next h => subst h; simp
  · next h => rw [← Nat.log2_lt h]; rfl

theorem lt_two_pow_bitlen (v : Nat) : v < 2 ^ bitlen v := (bitlen_le_iff v _).mp le_rfl

theorem bitlen_mono {v w : Nat} (h : v ≤ w) : bitlen v ≤ bitlen w :=
  (bitlen_le_iff v _).mpr (lt_of_le_of_lt h (lt_two_pow_bitlen w))

theorem bit_eq (v i : Nat) : (bit v i).toNat = v / 2 ^ i % 2 := by
  unfold bit
  rcases Nat.mod_two_eq_zero_or_one (v / 2 ^ i) with h | h <;> simp [h]

/-- Taking one more bit from the top: the prefix of `v` above bit `i` doubles and takes bit `i`. -/
theorem div_two_pow_succ (v i : Nat) : v / 2 ^ i = 2 * (v / 2 ^ (i + 1)) + (bit v i).toNat := by
  rw [bit_eq, pow_succ, ← Nat.div_div_eq_div_mul]
  omega

/-! The extended Euclidean algorithm. -/

theorem egcdLoop_zero (n r0 : Nat) (s0 s1 t0 t1 : Int) :
    egcdLoop n r0 0 s0 s1 t0 t1 = (r0, s0, t0) := by
  cases n <;> simp [egcdLoop]

theorem egcdLoop_succ (n r0 : Nat) {r1 : Nat} (h : r1 ≠ 0) (s0 s1 t0 t1 : Int) :
    egcdLoop (n + 1) r0 r1 s0 s1 t0 t1 =
      egcdLoop n r1 (r0 % r1) s1 (s0 - (r0 / r1 : Nat) * s1) t1 (t0 - (r0 / r1 : Nat) * t1) := by
  have : r0 - r0 / r1 * r1 = r0 % r1 := by
    have := Nat.div_add_mod r0 r1
    have := Nat.mul_comm r1 (r0 / r1)
    omega
  simp [egcdLoop, h, this]

/-- Two divisions at least halve the remainder. -/
theorem bitlen_mod_mod_lt {r1 r2 : Nat} (h1 : r2 < r1) (h2 : r2 ≠ 0) :
    bitlen (r1 % r2) + 1 ≤ bitlen r1 := by
  have hlt : r1 % r2 < r2 := Nat.mod_lt _ (by omega)
  have hsum : r1 % r2 + r2 ≤ r1 := by
    have hq : 1 ≤ r1 / r2 := (Nat.one_le_div_iff (by omega)).mpr h1.le
    have := Nat.div_add_mod r1 r2
    nlinarith
  have hb : bitlen r1 ≠ 0 := by
    intro h
    have := lt_two_pow_bitlen r1
    rw [h] at this
    omega
  obtain ⟨k, hk⟩ := Nat.exists_eq_succ_of_ne_zero hb
  have hr : r1 < 2 ^ (k + 1) := by rw [← Nat.succ_eq_add_one, ← hk]; exact lt_two_pow_bitlen r1
  have : bitlen (r1 % r2) ≤ k := (bitlen_le_iff _ _).mpr (by rw [pow_succ] at hr; omega)
  omega

/-- The loop returns the gcd and keeps the Bézout relation `a*s + b*t = r` (40_modular.md R126's
invariant), whenever its bound allows `2 * bitlen r1` iterations. -/
theorem egcdLoop_spec (a b : Int) (n : Nat) : ∀ (r0 r1 : Nat) (s0 s1 t0 t1 : Int),
    2 * bitlen r1 ≤ n → a * s0 + b * t0 = r0 → a * s1 + b * t1 = r1 →
    (egcdLoop n r0 r1 s0 s1 t0 t1).1 = Nat.gcd r0 r1 ∧
    a * (egcdLoop n r0 r1 s0 s1 t0 t1).2.1 + b * (egcdLoop n r0 r1 s0 s1 t0 t1).2.2 =
      (Nat.gcd r0 r1 : Nat) := by
  induction n using Nat.strong_induction_on with
  | _ n ih =>
    intro r0 r1 s0 s1 t0 t1 hn h0 h1
    rcases Nat.eq_zero_or_pos r1 with rfl | hpos
    · simp [egcdLoop_zero, h0]
    have hb : 1 ≤ bitlen r1 := by
      by_contra h
      have := lt_two_pow_bitlen r1
      rw [show bitlen r1 = 0 by omega] at this
      omega
    obtain ⟨m, rfl⟩ : ∃ m, n = m + 2 := ⟨n - 2, by omega⟩
    have h2 : a * (s0 - (r0 / r1 : Nat) * s1) + b * (t0 - (r0 / r1 : Nat) * t1) = (r0 % r1 : Nat) := by
      have hd : ((r1 * (r0 / r1) + r0 % r1 : Nat) : Int) = r0 := by rw [Nat.div_add_mod]
      push_cast at hd ⊢
      linear_combination h0 - (r0 / r1 : Int) * h1 - hd
    have hg : Nat.gcd r0 r1 = Nat.gcd r1 (r0 % r1) := by
      rw [Nat.gcd_comm r0 r1, Nat.gcd_rec r1 r0, Nat.gcd_comm]
    rw [egcdLoop_succ _ _ hpos.ne', hg]
    rcases Nat.eq_zero_or_pos (r0 % r1) with hz | hpos2
    · rw [hz, egcdLoop_zero]
      simpa using h1
    · have hlt : r0 % r1 < r1 := Nat.mod_lt _ hpos
      have hh := bitlen_mod_mod_lt hlt hpos2.ne'
      have hg2 : Nat.gcd r1 (r0 % r1) = Nat.gcd (r0 % r1) (r1 % (r0 % r1)) := by
        rw [Nat.gcd_comm r1, Nat.gcd_rec (r0 % r1) r1, Nat.gcd_comm]
      rw [egcdLoop_succ _ _ hpos2.ne', hg2]
      refine ih m (by omega) _ _ _ _ _ _ (by omega) h2 ?_
      have hd : (((r0 % r1) * (r1 / (r0 % r1)) + r1 % (r0 % r1) : Nat) : Int) = r1 := by
        rw [Nat.div_add_mod]
      push_cast at hd h2 ⊢
      linear_combination h1 - (r1 / (r0 % r1 : Int)) * h2 - hd

/-- `mod_inverse` succeeds on coprime operands, with a residue that inverts (40_modular.md R127). -/
theorem modInverse_of_coprime {a m : Nat} (hm : 0 < m) (h : Nat.gcd a m = 1) :
    ∃ r, modInverse a m = .ok r ∧ r < m ∧ a * r % m = 1 % m := by
  obtain ⟨hg, hb⟩ := egcdLoop_spec a m (2 * bitlen m) a m 1 0 0 1 le_rfl (by ring) (by ring)
  refine ⟨modN (extendedGcd a m).2.1 m, ?_, modN_lt _ hm, ?_⟩
  · have : (extendedGcd a m).1 = 1 := by rw [extendedGcd, hg, h]
    simp [modInverse, this]
  · rw [h] at hb
    have : ((a * modN (extendedGcd a m).2.1 m : Nat) : Int) ≡ ((1 : Nat) : Int) [ZMOD m] := by
      rw [← hb]
      push_cast
      have h1 := (modN_emod_eq (extendedGcd a m).2.1 hm).mul_left (a : Int)
      refine h1.trans ?_
      rw [Int.modEq_iff_dvd]
      exact ⟨(extendedGcd a m).2.2, by simp only [extendedGcd]; ring⟩
    exact (Int.natCast_modEq_iff.mp this)

/-- `mod_inverse` raises NotInvertible on operands that are not coprime (40_modular.md R127). -/
theorem modInverse_of_not_coprime {a m : Nat} (h : Nat.gcd a m ≠ 1) :
    modInverse a m = .error .notInvertible := by
  obtain ⟨hg, -⟩ := egcdLoop_spec a m (2 * bitlen m) a m 1 0 0 1 le_rfl (by ring) (by ring)
  have : (extendedGcd a m).1 ≠ 1 := by rw [extendedGcd, hg]; exact h
  simp [modInverse, this]

/-- The only way `mod_inverse` fails. -/
theorem modInverse_error {a m : Nat} {e : Failure} (h : modInverse a m = .error e) :
    e = .notInvertible := by
  simp only [modInverse] at h
  split at h
  · exact (Except.error.inj h).symm
  · cases h

/-! Modular exponentiation. -/

/-- The loop raises the accumulator to `2^i` and multiplies in the low `i` bits of the exponent. -/
theorem modpowLoop_spec (base exponent m : Nat) : ∀ (i acc : Nat),
    acc ≡ base ^ (exponent / 2 ^ i) [MOD m] →
    modpowLoop base exponent m i acc ≡ base ^ exponent [MOD m] := by
  intro i
  induction i with
  | zero => intro acc h; simpa [modpowLoop] using h
  | succ i ih =>
    intro acc h
    simp only [modpowLoop]
    apply ih
    have hsq : acc * acc % m ≡ base ^ (2 * (exponent / 2 ^ (i + 1))) [MOD m] := by
      rw [two_mul, pow_add]
      exact (Nat.mod_modEq _ _).trans (h.mul h)
    have hd := div_two_pow_succ exponent i
    cases hb : bit exponent i with
    | true =>
      rw [hb] at hd
      simp only [if_true]
      rw [hd]
      exact (Nat.mod_modEq _ _).trans (by simpa [pow_succ] using hsq.mul_right base)
    | false =>
      rw [hb] at hd
      rw [hd]
      simpa using hsq

end Sys2Proof.Machine
end

