-- ==== Sys2Proof/Laws/Curve.lean ====
section
/-! SUPPORT. What the point functions of Machine/Curve.lean do, each said once. -/

namespace Sys2Proof.Machine

theorem checkPoint_ok_iff (P : Point) (p : Nat) : checkPoint P p = .ok () ↔ P.inRange p := by
  cases P with
  | inf => simp [checkPoint, Point.inRange]
  | aff x y => simp only [checkPoint, Point.inRange]; split <;> simp_all

theorem checkPoint_of_not_inRange {P : Point} {p : Nat} (h : ¬ P.inRange p) :
    checkPoint P p = .error .badOperand := by
  cases P with
  | inf => exact absurd rfl h
  | aff x y => simp only [Point.inRange, decide_eq_true_eq] at h; simp [checkPoint, h]

/-- The only way `check_point` fails. -/
theorem checkPoint_error {P : Point} {p : Nat} {e : Failure} (h : checkPoint P p = .error e) :
    e = .badOperand ∧ ¬ P.inRange p := by
  by_cases hr : P.inRange p
  · rw [(checkPoint_ok_iff P p).mpr hr] at h; cases h
  · rw [checkPoint_of_not_inRange hr] at h; exact ⟨(Except.error.inj h).symm, hr⟩

/-! The slope. -/

theorem slope_of_coprime (num : Nat) {den p : Nat} (hp : 0 < p) (h : Nat.gcd den p = 1) :
    ∃ lam, slope num den p = .ok lam ∧ lam < p ∧ lam * den ≡ num [MOD p] := by
  obtain ⟨inv, hi, -, hinv⟩ := modInverse_of_coprime (a := den % p) hp (by simpa using h)
  refine ⟨modN (num * inv) p, ?_, modN_lt _ hp, ?_⟩
  · simp [slope, invMod, modN_natCast, hi]
  · have h1 : den * inv ≡ 1 [MOD p] := by
      have : den % p * inv ≡ den * inv [MOD p] := (Nat.mod_modEq den p).mul_right inv
      exact this.symm.trans hinv
    have h2 : modN (num * inv) p ≡ num * inv [MOD p] := by
      rw [show ((num : Int) * inv) = ((num * inv : Nat) : Int) by push_cast; ring, modN_natCast]
      exact Nat.mod_modEq _ _
    calc modN (num * inv) p * den ≡ num * inv * den [MOD p] := h2.mul_right den
      _ = num * (den * inv) := by ring
      _ ≡ num * 1 [MOD p] := h1.mul_left num
      _ = num := by ring

theorem slope_of_not_coprime (num : Nat) {den p : Nat} (h : Nat.gcd den p ≠ 1) :
    slope num den p = .error .notInvertible := by
  have : modInverse (den % p) p = .error .notInvertible :=
    modInverse_of_not_coprime (by simpa using h)
  simp [slope, invMod, modN_natCast, this]

theorem slope_error {num den p : Nat} {e : Failure} (h : slope num den p = .error e) :
    e = .notInvertible := by
  simp only [slope] at h
  split at h
  · next e' he => exact (Except.error.inj h) ▸ modInverse_error he
  · cases h

theorem slope_lt {num den p lam : Nat} (hp : 0 < p) (h : slope num den p = .ok lam) : lam < p := by
  simp only [slope] at h
  split at h
  · cases h
  · exact (Except.ok.inj h) ▸ modN_lt _ hp

/-! The group laws, by case. -/

/-- `y1 = (-y2) mod p`, for coordinates in range: their sum is a multiple of `p`. -/
theorem eq_modN_neg_iff {y1 y2 p : Nat} (h1 : y1 < p) (hp : 0 < p) :
    y1 = modN (-(y2 : Int)) p ↔ (y1 + y2) % p = 0 := by
  constructor
  · intro h
    have hm := modN_emod_eq (-(y2 : Int)) hp
    rw [← h] at hm
    have : ((y1 + y2 : Nat) : Int) ≡ ((0 : Nat) : Int) [ZMOD p] := by
      push_cast
      simpa using hm.add_right (y2 : Int)
    exact Int.natCast_modEq_iff.mp this
  · intro h
    have hm : ((y1 + y2 : Nat) : Int) ≡ ((0 : Nat) : Int) [ZMOD p] :=
      Int.natCast_modEq_iff.mpr (by simpa [Nat.ModEq] using h)
    push_cast at hm
    have h2 : (y1 : Int) ≡ modN (-(y2 : Int)) p [ZMOD p] := by
      refine Int.ModEq.trans ?_ (modN_emod_eq (-(y2 : Int)) hp).symm
      simpa using hm.sub_right (y2 : Int)
    have h3 := Int.natCast_modEq_iff.mp h2
    rwa [Nat.ModEq, Nat.mod_eq_of_lt h1, Nat.mod_eq_of_lt (modN_lt _ hp)] at h3

@[simp] theorem wAdd_inf_left (Q : Point) (a p : Nat) : wAdd .inf Q a p = .ok Q := by
  cases Q <;> rfl

@[simp] theorem wAdd_inf_right (Q : Point) (a p : Nat) : wAdd Q .inf a p = .ok Q := by
  cases Q <;> rfl

@[simp] theorem mAdd_inf_left (Q : Point) (A B p : Nat) : mAdd .inf Q A B p = .ok Q := by
  cases Q <;> rfl

@[simp] theorem mAdd_inf_right (Q : Point) (A B p : Nat) : mAdd Q .inf A B p = .ok Q := by
  cases Q <;> rfl

/-- The point of a line of slope `lam` on a curve where the three x-coordinates sum to `c`, by the
last two lines of `w_add` and `m_add`. -/
def linePoint (c : Int) (lam x1 y1 p : Nat) : Point :=
  .aff (modN c p) (modN ((lam : Int) * (x1 - modN c p) - y1) p)

/-- Case 2 (41_weierstrass.md R152). -/
theorem wAdd_neg {x y1 y2 a p : Nat} (h : y1 = modN (-(y2 : Int)) p) :
    wAdd (.aff x y1) (.aff x y2) a p = .ok .inf := by
  simp [wAdd, ← h]

/-- Case 3 (41_weierstrass.md R152). -/
theorem wAdd_double {x y a p : Nat} (h : y ≠ modN (-(y : Int)) p) :
    wAdd (.aff x y) (.aff x y) a p =
      match slope (modN (3 * x * x + a) p) (modN (2 * y) p) p with
      | .error e => .error e
      | .ok lam => .ok (linePoint ((lam : Int) * lam - x - x) lam x y p) := by
  simp only [wAdd, linePoint]
  rw [if_neg (by simp [h]), if_pos (by simp)] <;> rfl

/-- Case 4 (41_weierstrass.md R152). -/
theorem wAdd_chord {x1 y1 x2 y2 a p : Nat} (h : x1 ≠ x2 ∨ y1 ≠ modN (-(y2 : Int)) p ∧ y1 ≠ y2) :
    wAdd (.aff x1 y1) (.aff x2 y2) a p =
      match slope (modN ((y2 : Int) - y1) p) (modN ((x2 : Int) - x1) p) p with
      | .error e => .error e
      | .ok lam => .ok (linePoint ((lam : Int) * lam - x1 - x2) lam x1 y1 p) := by
  simp only [wAdd, linePoint]
  rw [if_neg (by tauto), if_neg (by tauto)] <;> rfl

theorem mAdd_neg {x y1 y2 A B p : Nat} (h : y1 = modN (-(y2 : Int)) p) :
    mAdd (.aff x y1) (.aff x y2) A B p = .ok .inf := by
  simp [mAdd, ← h]

theorem mAdd_double {x y A B p : Nat} (h : y ≠ modN (-(y : Int)) p) :
    mAdd (.aff x y) (.aff x y) A B p =
      match slope (modN (3 * x * x + 2 * A * x + 1) p) (modN (2 * B * y) p) p with
      | .error e => .error e
      | .ok lam => .ok (linePoint ((B : Int) * lam * lam - A - x - x) lam x y p) := by
  simp only [mAdd, linePoint]
  rw [if_neg (by simp [h]), if_pos (by simp)] <;> rfl

theorem mAdd_chord {x1 y1 x2 y2 A B p : Nat}
    (h : x1 ≠ x2 ∨ y1 ≠ modN (-(y2 : Int)) p ∧ y1 ≠ y2) :
    mAdd (.aff x1 y1) (.aff x2 y2) A B p =
      match slope (modN ((y2 : Int) - y1) p) (modN ((x2 : Int) - x1) p) p with
      | .error e => .error e
      | .ok lam => .ok (linePoint ((B : Int) * lam * lam - A - x1 - x2) lam x1 y1 p) := by
  simp only [mAdd, linePoint]
  rw [if_neg (by tauto), if_neg (by tauto)] <;> rfl

theorem linePoint_inRange (c : Int) (lam x1 y1 : Nat) {p : Nat} (hp : 0 < p) :
    (linePoint c lam x1 y1 p).inRange p :=
  decide_eq_true ⟨modN_lt _ hp, modN_lt _ hp⟩

/-- Everything `w_add` can answer: one of its operands, `Inf`, a point in range, or NotInvertible. -/
theorem wAdd_answers (P Q : Point) (a : Nat) {p : Nat} (hp : 0 < p) :
    wAdd P Q a p = .ok P ∨ wAdd P Q a p = .ok Q ∨
    (∃ R, wAdd P Q a p = .ok R ∧ R.inRange p) ∨ wAdd P Q a p = .error .notInvertible := by
  match P, Q with
  | .inf, Q => simp
  | .aff x1 y1, .inf => simp
  | .aff x1 y1, .aff x2 y2 =>
    refine .inr (.inr ?_)
    by_cases h2 : x1 = x2 ∧ y1 = modN (-(y2 : Int)) p
    · obtain ⟨rfl, h2⟩ := h2
      exact .inl ⟨.inf, wAdd_neg h2, rfl⟩
    by_cases h3 : x1 = x2 ∧ y1 = y2
    · obtain ⟨rfl, rfl⟩ := h3
      rw [wAdd_double (by tauto)]
      split
      · next e he => exact .inr (by rw [slope_error he])
      · exact .inl ⟨_, rfl, linePoint_inRange _ _ _ _ hp⟩
    · rw [wAdd_chord (by tauto)]
      split
      · next e he => exact .inr (by rw [slope_error he])
      · exact .inl ⟨_, rfl, linePoint_inRange _ _ _ _ hp⟩

/-- Everything `m_add` can answer: one of its operands, `Inf`, a point in range, or NotInvertible. -/
theorem mAdd_answers (P Q : Point) (A B : Nat) {p : Nat} (hp : 0 < p) :
    mAdd P Q A B p = .ok P ∨ mAdd P Q A B p = .ok Q ∨
    (∃ R, mAdd P Q A B p = .ok R ∧ R.inRange p) ∨ mAdd P Q A B p = .error .notInvertible := by
  match P, Q with
  | .inf, Q => simp
  | .aff x1 y1, .inf => simp
  | .aff x1 y1, .aff x2 y2 =>
    refine .inr (.inr ?_)
    by_cases h2 : x1 = x2 ∧ y1 = modN (-(y2 : Int)) p
    · obtain ⟨rfl, h2⟩ := h2
      exact .inl ⟨.inf, mAdd_neg h2, rfl⟩
    by_cases h3 : x1 = x2 ∧ y1 = y2
    · obtain ⟨rfl, rfl⟩ := h3
      rw [mAdd_double (by tauto)]
      split
      · next e he => exact .inr (by rw [slope_error he])
      · exact .inl ⟨_, rfl, linePoint_inRange _ _ _ _ hp⟩
    · rw [mAdd_chord (by tauto)]
      split
      · next e he => exact .inr (by rw [slope_error he])
      · exact .inl ⟨_, rfl, linePoint_inRange _ _ _ _ hp⟩

/-! Double and add. -/

/-- The loop stays in any set of points that `add` keeps, and does not fail if `add` does not fail
there. -/
theorem doubleAndAddLoop_keeps {add : Point → Point → Except Failure Point} {S : Point → Prop}
    (hadd : ∀ P Q, S P → S Q → ∃ R, add P Q = .ok R ∧ S R) (kr : Nat) {P : Point} (hP : S P) :
    ∀ (i : Nat) (acc : Point), S acc → ∃ R, doubleAndAddLoop kr P add i acc = .ok R ∧ S R := by
  intro i
  induction i with
  | zero => intro acc h; exact ⟨acc, rfl, h⟩
  | succ i ih =>
    intro acc h
    obtain ⟨D, hD, hSD⟩ := hadd acc acc h h
    simp only [doubleAndAddLoop, hD]
    split
    · obtain ⟨T, hT, hST⟩ := hadd D P hSD hP
      simpa only [hT] using ih T hST
    · exact ih D hSD

/-- Whatever set contains every answer of `add` on its members contains the answer of the loop, and
every failure of the loop is a failure of `add`. -/
theorem doubleAndAddLoop_answers {add : Point → Point → Except Failure Point} {S : Point → Prop}
    {F : Failure → Prop}
    (hadd : ∀ P Q, S P → S Q → (∃ R, add P Q = .ok R ∧ S R) ∨ ∃ e, add P Q = .error e ∧ F e)
    (kr : Nat) {P : Point} (hP : S P) :
    ∀ (i : Nat) (acc : Point), S acc →
      (∃ R, doubleAndAddLoop kr P add i acc = .ok R ∧ S R) ∨
      ∃ e, doubleAndAddLoop kr P add i acc = .error e ∧ F e := by
  intro i
  induction i with
  | zero => intro acc h; exact .inl ⟨acc, rfl, h⟩
  | succ i ih =>
    intro acc h
    simp only [doubleAndAddLoop]
    rcases hadd acc acc h h with ⟨D, hD, hSD⟩ | ⟨e, he, hF⟩
    · simp only [hD]
      split
      · rcases hadd D P hSD hP with ⟨T, hT, hST⟩ | ⟨e, he, hF⟩
        · simpa only [hT] using ih T hST
        · exact .inr ⟨e, by simp only [he], hF⟩
      · exact ih D hSD
    · exact .inr ⟨e, by simp only [he], hF⟩

end Sys2Proof.Machine
end

