-- ==== Sys2Proof/Laws/State.lean ====
section
/-! SUPPORT. One lemma per field per update of State: what each named update leaves in each field. -/

namespace Sys2Proof.Machine

variable (s : State)

/-! Steps 1 and 2 of a command. -/

section
variable (v : Word)
@[simp] theorem State.beginCommand_cfg : (s.beginCommand v).cfg = s.cfg := rfl
@[simp] theorem State.beginCommand_cmd : (s.beginCommand v).cmd = v := rfl
@[simp] theorem State.beginCommand_status : (s.beginCommand v).status = 0#32 := rfl
@[simp] theorem State.beginCommand_ptag : (s.beginCommand v).ptag = s.ptag := rfl
@[simp] theorem State.beginCommand_rtag : (s.beginCommand v).rtag = 0#32 := rfl
@[simp] theorem State.beginCommand_mod : (s.beginCommand v).mod = s.mod := rfl
@[simp] theorem State.beginCommand_ord : (s.beginCommand v).ord = s.ord := rfl
@[simp] theorem State.beginCommand_ca : (s.beginCommand v).ca = s.ca := rfl
@[simp] theorem State.beginCommand_cb : (s.beginCommand v).cb = s.cb := rfl
@[simp] theorem State.beginCommand_opa : (s.beginCommand v).opa = s.opa := rfl
@[simp] theorem State.beginCommand_opb : (s.beginCommand v).opb = s.opb := rfl
@[simp] theorem State.beginCommand_k : (s.beginCommand v).k = s.k := rfl
@[simp] theorem State.beginCommand_p1x : (s.beginCommand v).p1x = s.p1x := rfl
@[simp] theorem State.beginCommand_p1y : (s.beginCommand v).p1y = s.p1y := rfl
@[simp] theorem State.beginCommand_p2x : (s.beginCommand v).p2x = s.p2x := rfl
@[simp] theorem State.beginCommand_p2y : (s.beginCommand v).p2y = s.p2y := rfl
@[simp] theorem State.beginCommand_res : (s.beginCommand v).res = 0 := rfl
@[simp] theorem State.beginCommand_p3x : (s.beginCommand v).p3x = 0 := rfl
@[simp] theorem State.beginCommand_p3y : (s.beginCommand v).p3y = 0 := rfl
@[simp] theorem State.beginCommand_pending : (s.beginCommand v).pending = s.pending := rfl
@[simp] theorem State.beginCommand_answers : (s.beginCommand v).answers = s.answers := rfl
@[simp] theorem State.beginCommand_point1 : (s.beginCommand v).point1 = s.point1 := rfl
@[simp] theorem State.beginCommand_point2 : (s.beginCommand v).point2 = s.point2 := rfl
@[simp] theorem State.beginCommand_radix : (s.beginCommand v).radix = s.radix := rfl
@[simp] theorem State.beginCommand_barrettInput : (s.beginCommand v).barrettInput = s.barrettInput := rfl
end

/-! Taking a failure. -/

section
variable (e : Failure)
@[simp] theorem State.raise_cfg : (s.raise e).cfg = s.cfg := rfl
@[simp] theorem State.raise_cmd : (s.raise e).cmd = s.cmd := rfl
@[simp] theorem State.raise_status : (s.raise e).status = statusFail e := rfl
@[simp] theorem State.raise_ptag : (s.raise e).ptag = s.ptag := rfl
@[simp] theorem State.raise_rtag : (s.raise e).rtag = s.rtag := rfl
@[simp] theorem State.raise_mod : (s.raise e).mod = s.mod := rfl
@[simp] theorem State.raise_ord : (s.raise e).ord = s.ord := rfl
@[simp] theorem State.raise_ca : (s.raise e).ca = s.ca := rfl
@[simp] theorem State.raise_cb : (s.raise e).cb = s.cb := rfl
@[simp] theorem State.raise_opa : (s.raise e).opa = s.opa := rfl
@[simp] theorem State.raise_opb : (s.raise e).opb = s.opb := rfl
@[simp] theorem State.raise_k : (s.raise e).k = s.k := rfl
@[simp] theorem State.raise_p1x : (s.raise e).p1x = s.p1x := rfl
@[simp] theorem State.raise_p1y : (s.raise e).p1y = s.p1y := rfl
@[simp] theorem State.raise_p2x : (s.raise e).p2x = s.p2x := rfl
@[simp] theorem State.raise_p2y : (s.raise e).p2y = s.p2y := rfl
@[simp] theorem State.raise_res : (s.raise e).res = s.res := rfl
@[simp] theorem State.raise_p3x : (s.raise e).p3x = s.p3x := rfl
@[simp] theorem State.raise_p3y : (s.raise e).p3y = s.p3y := rfl
@[simp] theorem State.raise_pending : (s.raise e).pending = s.pending := rfl
@[simp] theorem State.raise_answers : (s.raise e).answers = s.answers := rfl
end

/-! Writing a point result. -/

section
variable (P : Point)
@[simp] theorem State.resultPoint_cfg : (s.resultPoint P).cfg = s.cfg := by cases P <;> rfl
@[simp] theorem State.resultPoint_cmd : (s.resultPoint P).cmd = s.cmd := by cases P <;> rfl
@[simp] theorem State.resultPoint_status : (s.resultPoint P).status = s.status := by cases P <;> rfl
@[simp] theorem State.resultPoint_ptag : (s.resultPoint P).ptag = s.ptag := by cases P <;> rfl
@[simp] theorem State.resultPoint_mod : (s.resultPoint P).mod = s.mod := by cases P <;> rfl
@[simp] theorem State.resultPoint_ord : (s.resultPoint P).ord = s.ord := by cases P <;> rfl
@[simp] theorem State.resultPoint_ca : (s.resultPoint P).ca = s.ca := by cases P <;> rfl
@[simp] theorem State.resultPoint_cb : (s.resultPoint P).cb = s.cb := by cases P <;> rfl
@[simp] theorem State.resultPoint_opa : (s.resultPoint P).opa = s.opa := by cases P <;> rfl
@[simp] theorem State.resultPoint_opb : (s.resultPoint P).opb = s.opb := by cases P <;> rfl
@[simp] theorem State.resultPoint_k : (s.resultPoint P).k = s.k := by cases P <;> rfl
@[simp] theorem State.resultPoint_p1x : (s.resultPoint P).p1x = s.p1x := by cases P <;> rfl
@[simp] theorem State.resultPoint_p1y : (s.resultPoint P).p1y = s.p1y := by cases P <;> rfl
@[simp] theorem State.resultPoint_p2x : (s.resultPoint P).p2x = s.p2x := by cases P <;> rfl
@[simp] theorem State.resultPoint_p2y : (s.resultPoint P).p2y = s.p2y := by cases P <;> rfl
@[simp] theorem State.resultPoint_res : (s.resultPoint P).res = s.res := by cases P <;> rfl
@[simp] theorem State.resultPoint_pending : (s.resultPoint P).pending = s.pending := by cases P <;> rfl
@[simp] theorem State.resultPoint_answers : (s.resultPoint P).answers = s.answers := by cases P <;> rfl
@[simp] theorem State.resultPoint_inf_rtag : (s.resultPoint .inf).rtag = 1#32 := rfl
@[simp] theorem State.resultPoint_inf_p3x : (s.resultPoint .inf).p3x = 0 := rfl
@[simp] theorem State.resultPoint_inf_p3y : (s.resultPoint .inf).p3y = 0 := rfl
@[simp] theorem State.resultPoint_aff_rtag (x y : Nat) : (s.resultPoint (.aff x y)).rtag = 0#32 := rfl
@[simp] theorem State.resultPoint_aff_p3x (x y : Nat) : (s.resultPoint (.aff x y)).p3x = x := rfl
@[simp] theorem State.resultPoint_aff_p3y (x y : Nat) : (s.resultPoint (.aff x y)).p3y = y := rfl
end

/-! Reporting a success. -/

section
variable (r : Result)
@[simp] theorem State.succeed_cfg : (s.succeed r).cfg = s.cfg := by rcases r with _ | _ | _ <;> rfl
@[simp] theorem State.succeed_cmd : (s.succeed r).cmd = s.cmd := by rcases r with _ | _ | _ <;> rfl
@[simp] theorem State.succeed_status : (s.succeed r).status = 0x10#32 := by cases r <;> rfl
@[simp] theorem State.succeed_ptag : (s.succeed r).ptag = s.ptag := by rcases r with _ | _ | _ <;> rfl
@[simp] theorem State.succeed_mod : (s.succeed r).mod = s.mod := by rcases r with _ | _ | _ <;> rfl
@[simp] theorem State.succeed_ord : (s.succeed r).ord = s.ord := by rcases r with _ | _ | _ <;> rfl
@[simp] theorem State.succeed_ca : (s.succeed r).ca = s.ca := by rcases r with _ | _ | _ <;> rfl
@[simp] theorem State.succeed_cb : (s.succeed r).cb = s.cb := by rcases r with _ | _ | _ <;> rfl
@[simp] theorem State.succeed_opa : (s.succeed r).opa = s.opa := by rcases r with _ | _ | _ <;> rfl
@[simp] theorem State.succeed_opb : (s.succeed r).opb = s.opb := by rcases r with _ | _ | _ <;> rfl
@[simp] theorem State.succeed_k : (s.succeed r).k = s.k := by rcases r with _ | _ | _ <;> rfl
@[simp] theorem State.succeed_p1x : (s.succeed r).p1x = s.p1x := by rcases r with _ | _ | _ <;> rfl
@[simp] theorem State.succeed_p1y : (s.succeed r).p1y = s.p1y := by rcases r with _ | _ | _ <;> rfl
@[simp] theorem State.succeed_p2x : (s.succeed r).p2x = s.p2x := by rcases r with _ | _ | _ <;> rfl
@[simp] theorem State.succeed_p2y : (s.succeed r).p2y = s.p2y := by rcases r with _ | _ | _ <;> rfl
@[simp] theorem State.succeed_pending : (s.succeed r).pending = s.pending := by rcases r with _ | _ | _ <;> rfl
@[simp] theorem State.succeed_answers : (s.succeed r).answers = s.answers := by rcases r with _ | _ | _ <;> rfl
@[simp] theorem State.succeed_int_res (v : Nat) : (s.succeed (.int v)).res = v := rfl
@[simp] theorem State.succeed_int_rtag (v : Nat) : (s.succeed (.int v)).rtag = s.rtag := rfl
@[simp] theorem State.succeed_int_p3x (v : Nat) : (s.succeed (.int v)).p3x = s.p3x := rfl
@[simp] theorem State.succeed_int_p3y (v : Nat) : (s.succeed (.int v)).p3y = s.p3y := rfl
@[simp] theorem State.succeed_point_res (P : Point) : (s.succeed (.point P)).res = s.res := by cases P <;> rfl
@[simp] theorem State.succeed_point_rtag (P : Point) : (s.succeed (.point P)).rtag = (s.resultPoint P).rtag := rfl
@[simp] theorem State.succeed_point_p3x (P : Point) : (s.succeed (.point P)).p3x = (s.resultPoint P).p3x := rfl
@[simp] theorem State.succeed_point_p3y (P : Point) : (s.succeed (.point P)).p3y = (s.resultPoint P).p3y := rfl
end

/-! Writing a data register. -/

section
variable (r q : RegName) (v : Nat)
@[simp] theorem State.setReg_cfg : (s.setReg r v).cfg = s.cfg := by cases r <;> rfl
@[simp] theorem State.setReg_cmd : (s.setReg r v).cmd = s.cmd := by cases r <;> rfl
@[simp] theorem State.setReg_status : (s.setReg r v).status = s.status := by cases r <;> rfl
@[simp] theorem State.setReg_ptag : (s.setReg r v).ptag = s.ptag := by cases r <;> rfl
@[simp] theorem State.setReg_rtag : (s.setReg r v).rtag = s.rtag := by cases r <;> rfl
@[simp] theorem State.setReg_pending : (s.setReg r v).pending = s.pending := by cases r <;> rfl
@[simp] theorem State.setReg_answers : (s.setReg r v).answers = s.answers := by cases r <;> rfl
@[simp] theorem State.getReg_setReg_same : (s.setReg r v).getReg r = v := by cases r <;> rfl
theorem State.getReg_setReg_ne (h : q ≠ r) : (s.setReg r v).getReg q = s.getReg q := by
  cases r <;> cases q <;> first | rfl | exact absurd rfl h
@[simp] theorem State.setReg_getReg : s.setReg r (s.getReg r) = s := by cases r <;> rfl
@[simp] theorem State.setReg_setReg (w : Nat) : (s.setReg r v).setReg r w = s.setReg r w := by
  cases r <;> rfl
end

/-! A reset event. -/

@[simp] theorem State.resetEvent_cfg : s.resetEvent.cfg = s.cfg := rfl
@[simp] theorem State.resetEvent_cmd : s.resetEvent.cmd = 0#32 := rfl
@[simp] theorem State.resetEvent_status : s.resetEvent.status = 0#32 := rfl
@[simp] theorem State.resetEvent_ptag : s.resetEvent.ptag = 0#32 := rfl
@[simp] theorem State.resetEvent_rtag : s.resetEvent.rtag = 0#32 := rfl
@[simp] theorem State.resetEvent_mod : s.resetEvent.mod = 0 := rfl
@[simp] theorem State.resetEvent_ord : s.resetEvent.ord = 0 := rfl
@[simp] theorem State.resetEvent_ca : s.resetEvent.ca = 0 := rfl
@[simp] theorem State.resetEvent_cb : s.resetEvent.cb = 0 := rfl
@[simp] theorem State.resetEvent_opa : s.resetEvent.opa = 0 := rfl
@[simp] theorem State.resetEvent_opb : s.resetEvent.opb = 0 := rfl
@[simp] theorem State.resetEvent_k : s.resetEvent.k = 0 := rfl
@[simp] theorem State.resetEvent_p1x : s.resetEvent.p1x = 0 := rfl
@[simp] theorem State.resetEvent_p1y : s.resetEvent.p1y = 0 := rfl
@[simp] theorem State.resetEvent_p2x : s.resetEvent.p2x = 0 := rfl
@[simp] theorem State.resetEvent_p2y : s.resetEvent.p2y = 0 := rfl
@[simp] theorem State.resetEvent_res : s.resetEvent.res = 0 := rfl
@[simp] theorem State.resetEvent_p3x : s.resetEvent.p3x = 0 := rfl
@[simp] theorem State.resetEvent_p3y : s.resetEvent.p3y = 0 := rfl
@[simp] theorem State.resetEvent_pending : s.resetEvent.pending = s.pending := rfl
@[simp] theorem State.resetEvent_answers : s.resetEvent.answers = s.answers := rfl

/-! Adding an event. -/

section
variable (e : HostEvent)
@[simp] theorem State.withNext_cfg : (s.withNext e).cfg = s.cfg := rfl
@[simp] theorem State.withNext_cmd : (s.withNext e).cmd = s.cmd := rfl
@[simp] theorem State.withNext_status : (s.withNext e).status = s.status := rfl
@[simp] theorem State.withNext_ptag : (s.withNext e).ptag = s.ptag := rfl
@[simp] theorem State.withNext_rtag : (s.withNext e).rtag = s.rtag := rfl
@[simp] theorem State.withNext_mod : (s.withNext e).mod = s.mod := rfl
@[simp] theorem State.withNext_ord : (s.withNext e).ord = s.ord := rfl
@[simp] theorem State.withNext_ca : (s.withNext e).ca = s.ca := rfl
@[simp] theorem State.withNext_cb : (s.withNext e).cb = s.cb := rfl
@[simp] theorem State.withNext_opa : (s.withNext e).opa = s.opa := rfl
@[simp] theorem State.withNext_opb : (s.withNext e).opb = s.opb := rfl
@[simp] theorem State.withNext_k : (s.withNext e).k = s.k := rfl
@[simp] theorem State.withNext_p1x : (s.withNext e).p1x = s.p1x := rfl
@[simp] theorem State.withNext_p1y : (s.withNext e).p1y = s.p1y := rfl
@[simp] theorem State.withNext_p2x : (s.withNext e).p2x = s.p2x := rfl
@[simp] theorem State.withNext_p2y : (s.withNext e).p2y = s.p2y := rfl
@[simp] theorem State.withNext_res : (s.withNext e).res = s.res := rfl
@[simp] theorem State.withNext_p3x : (s.withNext e).p3x = s.p3x := rfl
@[simp] theorem State.withNext_p3y : (s.withNext e).p3y = s.p3y := rfl
@[simp] theorem State.withNext_pending : (s.withNext e).pending = e :: s.pending := rfl
@[simp] theorem State.withNext_answers : (s.withNext e).answers = s.answers := rfl
end

/-! The status words. -/

@[simp] theorem statusOk_eq : statusOk = 0x10#32 := rfl
theorem statusFail_eq (e : Failure) : statusFail e = e.code.setWidth 32 := by cases e <;> rfl
@[simp] theorem statusFail_invalidModulus : statusFail .invalidModulus = 0x01#32 := rfl
@[simp] theorem statusFail_notInvertible : statusFail .notInvertible = 0x02#32 := rfl
@[simp] theorem statusFail_noValidPoint : statusFail .noValidPoint = 0x03#32 := rfl
@[simp] theorem statusFail_illegalCommand : statusFail .illegalCommand = 0x04#32 := rfl
@[simp] theorem statusFail_badOperand : statusFail .badOperand = 0x05#32 := rfl
@[simp] theorem rtagWord_true : rtagWord true = 1#32 := rfl
@[simp] theorem rtagWord_false : rtagWord false = 0#32 := rfl

/-- A data register's number is below fourteen, and it is the only register of that number. -/
theorem RegName.number_lt (r : RegName) : r.number < 14 := by cases r <;> decide
@[simp] theorem RegName.ofNumber_number (r : RegName) : RegName.ofNumber r.number = some r := by
  cases r <;> rfl

end Sys2Proof.Machine
end

