-- ==== Sys2Proof/Laws/Ops.lean ====
section
/-! SUPPORT. What running a command does, said once: the two shapes of `runCommand`, what each rule
can answer, and what every command leaves unchanged. -/

namespace Sys2Proof.Machine

theorem runCommand_ok {i : Instr} {rule : State → Except Failure Result} {s : State} {r : Result}
    (h : rule (s.beginCommand (encode i)) = .ok r) :
    runCommand i rule s = (s.beginCommand (encode i)).succeed r := by
  simp [runCommand, h]

theorem runCommand_error {i : Instr} {rule : State → Except Failure Result} {s : State} {k : Failure}
    (h : rule (s.beginCommand (encode i)) = .error k) :
    runCommand i rule s = (s.beginCommand (encode i)).raise k := by
  simp [runCommand, h]

/-- Everything a command can do: succeed with a result or raise a failure, from the begun state. -/
theorem runCommand_cases (i : Instr) (rule : State → Except Failure Result) (s : State) :
    (∃ r, rule (s.beginCommand (encode i)) = .ok r ∧
      runCommand i rule s = (s.beginCommand (encode i)).succeed r) ∨
    ∃ k, rule (s.beginCommand (encode i)) = .error k ∧
      runCommand i rule s = (s.beginCommand (encode i)).raise k := by
  rcases h : rule (s.beginCommand (encode i)) with k | r
  · exact .inr ⟨k, rfl, runCommand_error h⟩
  · exact .inl ⟨r, rfl, runCommand_ok h⟩

/-- The rule of a command (30_encoding.md R91 step 4). -/
def ruleOf : Instr → State → Except Failure Result
  | .montmul => ruleMontmul
  | .barrett => ruleBarrett
  | .modinv => ruleModinv
  | .wAdd => ruleWAdd
  | .wDbl => ruleWDbl
  | .wSmul => ruleWSmul
  | .mAdd => ruleMAdd
  | .mSmul => ruleMSmul

/-- Every arm of `exec` is `runCommand` of the command's rule. -/
theorem exec_eq (i : Instr) (s : State) : exec i s = .next (runCommand i (ruleOf i) s) := by
  cases i <;> rfl

/-- The rules read operand registers, tags and parameters only, none of which beginning a command
changes (30_encoding.md R92). -/
theorem ruleOf_beginCommand (i : Instr) (s : State) (v : Word) :
    ruleOf i (s.beginCommand v) = ruleOf i s := by
  cases i <;> rfl

/-- What a command does, in one place: the begun state with the result of its rule written, or with
its failure raised. -/
theorem exec_cases (i : Instr) (s : State) :
    (∃ r, ruleOf i s = .ok r ∧ exec i s = .next ((s.beginCommand (encode i)).succeed r)) ∨
    ∃ k, ruleOf i s = .error k ∧ exec i s = .next ((s.beginCommand (encode i)).raise k) := by
  rw [exec_eq, ← ruleOf_beginCommand i s (encode i)]
  rcases runCommand_cases i (ruleOf i) s with ⟨r, hr, h⟩ | ⟨k, hk, h⟩
  · exact .inl ⟨r, hr, by rw [h]⟩
  · exact .inr ⟨k, hk, by rw [h]⟩

theorem exec_of_ok {i : Instr} {s : State} {r : Result} (h : ruleOf i s = .ok r) :
    exec i s = .next ((s.beginCommand (encode i)).succeed r) := by
  rw [exec_eq, runCommand_ok (by rw [ruleOf_beginCommand, h])]

theorem exec_of_error {i : Instr} {s : State} {k : Failure} (h : ruleOf i s = .error k) :
    exec i s = .next ((s.beginCommand (encode i)).raise k) := by
  rw [exec_eq, runCommand_error (by rw [ruleOf_beginCommand, h])]

/-! What the rules can answer. -/

/-- Everything MONTMUL can answer. -/
theorem montmul_cases (R a b N : Nat) :
    montmul R a b N = .error .invalidModulus ∨ montmul R a b N = .error .notInvertible ∨
    ∃ v, montmul R a b N = .ok v ∧ 0 < N ∧ v < N := by
  unfold montmul
  split
  · exact .inl rfl
  split
  · exact .inl rfl
  split
  · exact .inr (.inr ⟨0, rfl, by omega, by omega⟩)
  split
  · next e he => exact .inr (.inl (by rw [modInverse_error he]))
  · next hN _ _ _ _ _ => exact .inr (.inr ⟨_, rfl, by omega, Nat.mod_lt _ (by omega)⟩)

/-- A successful rule of a modular command gives an Integer below the modulus. -/
theorem ruleOf_modular_ok {i : Instr} (hi : i = .montmul ∨ i = .barrett ∨ i = .modinv) {s : State}
    {r : Result} (h : ruleOf i s = .ok r) : ∃ v, r = .int v ∧ v < s.mod := by
  have hmap : ∀ {x : Except Failure Nat}, x.map Result.int = .ok r → ∃ v, r = .int v ∧ x = .ok v := by
    rintro (_ | v) hx
    · cases hx
    · exact ⟨v, (Except.ok.inj hx).symm, rfl⟩
  rcases hi with rfl | rfl | rfl
  · obtain ⟨v, rfl, hv⟩ := hmap h
    rcases montmul_cases s.radix s.opa s.opb s.mod with h' | h' | ⟨w, h', -, hw⟩ <;> rw [hv] at h'
    · cases h'
    · cases h'
    · exact ⟨v, rfl, Except.ok.inj h' ▸ hw⟩
  · obtain ⟨v, rfl, hv⟩ := hmap h
    unfold barrett at hv
    split at hv
    · cases hv
    · exact ⟨v, rfl, Except.ok.inj hv ▸ Nat.mod_lt _ (by omega)⟩
  · obtain ⟨v, rfl, hv⟩ := hmap h
    unfold modinv at hv
    split at hv
    · cases hv
    · next hm =>
      by_cases hg : Nat.gcd s.opa s.mod = 1
      · obtain ⟨w, hw, hlt, -⟩ := modInverse_of_coprime (by omega) hg
        rw [hv] at hw
        exact ⟨v, rfl, Except.ok.inj hw ▸ hlt⟩
      · rw [modInverse_of_not_coprime hg] at hv; cases hv

end Sys2Proof.Machine
end

