-- ==== Sys2Proof/Laws/PerInstr.lean ====
section
/-! SUPPORT. Facts about every command as syntax, one lemma per constructor. -/

namespace Sys2Proof.Laws

/-- A command word has `RSV = 0` and a non-zero opcode below 0x80 (30_encoding.md R90, R94: "`0x00` is
left illegal"). -/
def CommandWord.Statement (i : Instr) : Prop :=
  i.wf = true ∧ rsvField (encode i) = 0#24 ∧ opcField (encode i) ≠ 0#8 ∧ opcField (encode i) < 0x80#8

theorem CommandWord.montmul : CommandWord.Statement .montmul := by unfold Statement; decide
theorem CommandWord.barrett : CommandWord.Statement .barrett := by unfold Statement; decide
theorem CommandWord.modinv : CommandWord.Statement .modinv := by unfold Statement; decide
theorem CommandWord.wAdd : CommandWord.Statement .wAdd := by unfold Statement; decide
theorem CommandWord.wDbl : CommandWord.Statement .wDbl := by unfold Statement; decide
theorem CommandWord.wSmul : CommandWord.Statement .wSmul := by unfold Statement; decide
theorem CommandWord.mAdd : CommandWord.Statement .mAdd := by unfold Statement; decide
theorem CommandWord.mSmul : CommandWord.Statement .mSmul := by unfold Statement; decide

end Sys2Proof.Laws
end

