-- ==== Sys2Proof/Laws/Window.lean ====
section
/-! SUPPORT. The window: which accesses are admitted, where each register lies, and that the words of a
register are independent. -/

namespace Sys2Proof.Machine

/-- An access is admitted exactly when it is 32 bits wide, inside the window and aligned
(20_memory.md R65). -/
theorem accept_ok_iff (c : Config) (addr bytes off : Nat) :
    accept c addr bytes = .ok off ↔
      bytes = 4 ∧ addr = c.base + off ∧ off < windowSize c ∧ off % 4 = 0 := by
  unfold accept
  split
  · simp; omega
  split
  · simp; omega
  split
  · simp; intros; omega
  · simp only [Except.ok.injEq]; omega

theorem accept_at {c : Config} {off : Nat} (h : off < windowSize c) (h4 : off % 4 = 0) :
    accept c (c.base + off) 4 = .ok off :=
  (accept_ok_iff _ _ _ _).mpr ⟨rfl, rfl, h, h4⟩

/-- What the first sixteen bytes of the window are. -/
theorem locate_control (c : Config) :
    locate c 0x000 = .cmd ∧ locate c 0x004 = .status ∧ locate c 0x008 = .ptag ∧
    locate c 0x00C = .rtag := by
  simp [locate]

theorem locate_reserved {c : Config} {off : Nat} (h : 0x010 ≤ off) (h' : off < 0x100) :
    locate c off = .reserved := by
  unfold locate
  rw [if_neg (by omega), if_neg (by omega), if_neg (by omega), if_neg (by omega), if_pos h']

/-- Word `j` of register `r` is at its offset plus `4 j` (20_memory.md R63). -/
theorem locate_data {c : Config} {r : RegName} {j : Nat} (hj : 4 * j < regBytes c) :
    locate c (regOffset c r + 4 * j) = .data r j := by
  unfold locate regOffset
  rw [if_neg (by omega), if_neg (by omega), if_neg (by omega), if_neg (by omega), if_neg (by omega)]
  have hsub : 0x100 + r.number * regBytes c + 4 * j - 0x100 = 4 * j + r.number * regBytes c := by omega
  have hd : (4 * j + r.number * regBytes c) / regBytes c = r.number := by
    rw [Nat.add_mul_div_right _ _ (by omega), Nat.div_eq_of_lt hj, zero_add]
  have hm : (4 * j + r.number * regBytes c) % regBytes c = 4 * j := by
    rw [Nat.add_mul_mod_self_right, Nat.mod_eq_of_lt hj]
  rw [hsub, hd, hm]
  simp

/-- For a legal width a register is `W/32` words of four bytes. -/
theorem regBytes_eq {c : Config} (hc : c.wf) : regBytes c = 4 * regWords c ∧ c.width = 32 * regWords c := by
  obtain ⟨⟨n, hn⟩, -, -⟩ := hc
  simp only [regBytes, regWords, hn]
  omega

/-- The words of the data registers lie inside the window. -/
theorem regOffset_lt_windowSize {c : Config} {r : RegName} {j : Nat} (hj : 4 * j < regBytes c) :
    regOffset c r + 4 * j < windowSize c := by
  have hr := r.number_lt
  have : r.number * regBytes c + regBytes c ≤ 14 * regBytes c := by
    rw [← Nat.succ_mul]
    exact Nat.mul_le_mul_right _ (by omega)
  unfold regOffset windowSize
  omega

theorem regOffset_aligned {c : Config} (hc : c.wf) (r : RegName) (j : Nat) :
    (regOffset c r + 4 * j) % 4 = 0 := by
  rw [regOffset, (regBytes_eq hc).1, ← Nat.mul_assoc, Nat.mul_comm r.number 4, Nat.mul_assoc]
  omega

/-! The words of a register. -/

theorem getWord_toNat (v j : Nat) : (getWord v j).toNat = v / 2 ^ (32 * j) % 2 ^ 32 := by
  simp [getWord]

/-- A word written is read back. -/
@[simp] theorem getWord_setWord_same (v j : Nat) (w : Word) : getWord (setWord v j w) j = w := by
  have hlow : v % 2 ^ (32 * j) < 2 ^ (32 * j) := Nat.mod_lt _ (by positivity)
  have hsplit : setWord v j w =
      v % 2 ^ (32 * j) + 2 ^ (32 * j) * (w.toNat + 2 ^ 32 * (v / 2 ^ (32 * (j + 1)))) := by
    unfold setWord
    rw [show 32 * (j + 1) = 32 * j + 32 by ring, pow_add]
    ring
  rw [getWord, hsplit, Nat.add_mul_div_left _ _ (by positivity), Nat.div_eq_of_lt hlow, zero_add]
  apply BitVec.eq_of_toNat_eq
  rw [BitVec.toNat_ofNat, Nat.add_mul_mod_self_left, Nat.mod_eq_of_lt w.isLt]

/-- Bit `i` of a register after word `j` is written. -/
theorem testBit_setWord (v j : Nat) (w : Word) (i : Nat) :
    (setWord v j w).testBit i =
      if i < 32 * j then v.testBit i
      else if i < 32 * (j + 1) then w.toNat.testBit (i - 32 * j)
      else v.testBit i := by
  have h1 : w.toNat + 2 ^ 32 * (v / 2 ^ (32 * (j + 1))) = 2 ^ 32 * (v / 2 ^ (32 * (j + 1))) + w.toNat := by
    ring
  have hsplit : setWord v j w =
      2 ^ (32 * j) * (2 ^ 32 * (v / 2 ^ (32 * (j + 1))) + w.toNat) + v % 2 ^ (32 * j) := by
    unfold setWord
    rw [show 32 * (j + 1) = 32 * j + 32 by ring, pow_add]
    ring
  rw [hsplit, Nat.testBit_two_pow_mul_add _ (Nat.mod_lt _ (by positivity))]
  split
  · next h => rw [Nat.testBit_mod_two_pow]; simp [h]
  · next h =>
    rw [Nat.testBit_two_pow_mul_add _ w.isLt]
    split
    · next h' => rw [if_pos (by omega)]
    · next h' =>
      rw [if_neg (by omega), Nat.testBit_div_two_pow,
        show i - 32 * j - 32 + 32 * (j + 1) = i by omega]

/-- The other words stay. -/
theorem getWord_setWord_ne (v : Nat) {i j : Nat} (w : Word) (h : i ≠ j) :
    getWord (setWord v j w) i = getWord v i := by
  apply BitVec.eq_of_toNat_eq
  rw [getWord_toNat, getWord_toNat]
  apply Nat.eq_of_testBit_eq
  intro b
  rw [Nat.testBit_mod_two_pow, Nat.testBit_mod_two_pow]
  by_cases hb : b < 32
  · simp only [hb, decide_true, Bool.true_and, Nat.testBit_div_two_pow, testBit_setWord]
    split
    · rfl
    split
    · omega
    · rfl
  · simp [hb]

/-- A register stays below `2^W` when one of its words is written. -/
theorem setWord_lt {v j n : Nat} (w : Word) (hv : v < 2 ^ (32 * n)) (hj : j < n) :
    setWord v j w < 2 ^ (32 * n) := by
  apply Nat.lt_pow_two_of_testBit
  intro i hi
  have hvi : v.testBit i = false :=
    Nat.testBit_lt_two_pow (lt_of_lt_of_le hv (Nat.pow_le_pow_right (by norm_num) hi))
  rw [testBit_setWord]
  split
  · exact hvi
  split
  · omega
  · exact hvi

/-- Two registers below `2^W` with the same words are equal. -/
theorem eq_of_getWord_eq {v w n : Nat} (hv : v < 2 ^ (32 * n)) (hw : w < 2 ^ (32 * n))
    (h : ∀ j < n, getWord v j = getWord w j) : v = w := by
  apply Nat.eq_of_testBit_eq
  intro i
  by_cases hi : i < 32 * n
  · have hj := congrArg BitVec.toNat (h (i / 32) (by omega))
    rw [getWord_toNat, getWord_toNat] at hj
    have hb := congrArg (fun x => x.testBit (i % 32)) hj
    simp only [Nat.testBit_mod_two_pow, Nat.testBit_div_two_pow] at hb
    rw [show i % 32 + 32 * (i / 32) = i by omega] at hb
    have h32 : i % 32 < 32 := by omega
    simpa [h32, Nat.mod_lt] using hb
  · rw [Nat.testBit_lt_two_pow (lt_of_lt_of_le hv (Nat.pow_le_pow_right (by norm_num) (by omega))),
      Nat.testBit_lt_two_pow (lt_of_lt_of_le hw (Nat.pow_le_pow_right (by norm_num) (by omega)))]

/-- Writing the same word twice is writing it once. -/
@[simp] theorem setWord_setWord (v j : Nat) (w : Word) : setWord (setWord v j w) j w = setWord v j w := by
  apply Nat.eq_of_testBit_eq
  intro i
  simp only [testBit_setWord]
  split
  · rfl
  split <;> rfl

end Sys2Proof.Machine
end

