-- ==== Sys2Proof/Laws/Step.lean ====
section
/-! SUPPORT. What one step does, said once, by what is pending. -/

namespace Sys2Proof.Machine

theorem step_idle {s : State} (h : s.pending = []) : step s = .next s := by
  simp [step, takeEvent, h]

theorem step_event {s : State} {e : HostEvent} {rest : List HostEvent} (h : s.pending = e :: rest) :
    step s = hostEvent e { s with pending := rest } := by
  simp [step, takeEvent, h]

theorem hostEvent_read {s : State} {off : Nat} (h : off < windowSize s.cfg) (h4 : off % 4 = 0) :
    hostEvent (.read (s.cfg.base + off) 4) s = .next { s with answers := s.answers ++ [memRead s off] } := by
  simp [hostEvent, accept_at h h4]

theorem hostEvent_write {s : State} {off : Nat} (v : Word) (h : off < windowSize s.cfg)
    (h4 : off % 4 = 0) : hostEvent (.write (s.cfg.base + off) 4 v) s = memWrite off v s := by
  simp [hostEvent, accept_at h h4]

/-- The write of a command word is admitted whatever the parameters. -/
theorem hostEvent_write_cmd (s : State) (v : Word) : hostEvent (.write s.cfg.base 4 v) s = issue v s := by
  have h : accept s.cfg s.cfg.base 4 = .ok 0 := by
    have := accept_at (c := s.cfg) (off := 0) (by unfold windowSize; omega) rfl
    simpa using this
  simp [hostEvent, h, memWrite, locate]

/-- Everything the write of a word can do when it is admitted. -/
theorem memWrite_cases {off : Nat} {v : Word} {s t : State} (h : memWrite off v s = .next t) :
    (locate s.cfg off = .cmd ∧
      ((∃ i, decode v = .ok i ∧ exec i s = .next t) ∨
       ∃ e, decode v = .error e ∧ t = (s.beginCommand v).raise .illegalCommand)) ∨
    (locate s.cfg off = .ptag ∧ t = { s with ptag := ptagOfWrite v }) ∨
    (∃ r j, locate s.cfg off = .data r j ∧ r.isOperand = true ∧
      t = s.setReg r (setWord (s.getReg r) j v)) ∨
    t = s := by
  unfold memWrite at h
  split at h
  · next hl =>
    unfold issue at h
    split at h
    · next i hi => exact .inl ⟨hl, .inl ⟨i, hi, h⟩⟩
    · next e he =>
      injection h with h
      exact .inl ⟨hl, .inr ⟨e, he, h.symm⟩⟩
  · injection h with h; exact .inr (.inr (.inr h.symm))
  · next hl => injection h with h; exact .inr (.inl ⟨hl, h.symm⟩)
  · injection h with h; exact .inr (.inr (.inr h.symm))
  · injection h with h; exact .inr (.inr (.inr h.symm))
  · next r j hl =>
    injection h with h
    split at h
    · next hr => exact .inr (.inr (.inl ⟨r, j, hl, hr, h.symm⟩))
    · exact .inr (.inr (.inr h.symm))

/-- An admitted write always answers a next state. -/
theorem memWrite_next (off : Nat) (v : Word) (s : State) : ∃ t, memWrite off v s = .next t := by
  unfold memWrite
  split
  · unfold issue
    split
    · next i _ => exact ⟨_, exec_eq i s⟩
    · exact ⟨_, rfl⟩
  all_goals exact ⟨_, rfl⟩

/-- Everything a step can do when it answers a next state. -/
theorem step_cases {s t : State} (h : step s = .next t) :
    (s.pending = [] ∧ t = s) ∨
    ∃ rest, (s.pending = .reset :: rest ∧ t = ({ s with pending := rest } : State).resetEvent) ∨
      (∃ addr bytes off, s.pending = .read addr bytes :: rest ∧ accept s.cfg addr bytes = .ok off ∧
        t = { s with pending := rest, answers := s.answers ++ [memRead s off] }) ∨
      ∃ addr bytes v off, s.pending = .write addr bytes v :: rest ∧ accept s.cfg addr bytes = .ok off ∧
        memWrite off v { s with pending := rest } = .next t := by
  rcases hp : s.pending with _ | ⟨e, rest⟩
  · rw [step_idle hp] at h
    injection h with h
    exact .inl ⟨rfl, h.symm⟩
  · refine .inr ⟨rest, ?_⟩
    rw [step_event hp] at h
    cases e with
    | reset =>
      injection h with h
      exact .inl ⟨rfl, h.symm⟩
    | read addr bytes =>
      simp only [hostEvent] at h
      split at h
      · cases h
      · next off ha =>
        injection h with h
        exact .inr (.inl ⟨addr, bytes, off, rfl, ha, h.symm⟩)
    | write addr bytes v =>
      simp only [hostEvent] at h
      split at h
      · cases h
      · next off ha => exact .inr (.inr ⟨addr, bytes, v, off, rfl, ha, h⟩)

end Sys2Proof.Machine
end

