-- ==== Sys2Proof/Laws/Safety.lean ====
section
/-! SUPPORT. The states a command leaves, in the vocabulary of Safety.lean. -/

namespace Sys2Proof.Machine

theorem beginCommand_succeed_int (s : State) (v : Word) (n : Nat) :
    (s.beginCommand v).succeed (.int n) = s.afterInt v n := rfl

theorem beginCommand_succeed_point (s : State) (v : Word) (P : Point) :
    (s.beginCommand v).succeed (.point P) = s.afterPoint v P := by cases P <;> rfl

theorem beginCommand_raise (s : State) (v : Word) (k : Failure) :
    (s.beginCommand v).raise k = s.afterFailure v (statusFail k) := rfl

/-- What every command can leave: an Integer, a point, or a failure. -/
theorem exec_answers (i : Instr) (s : State) :
    (∃ n, ruleOf i s = .ok (.int n) ∧ exec i s = .next (s.afterInt (encode i) n)) ∨
    (∃ P, ruleOf i s = .ok (.point P) ∧ exec i s = .next (s.afterPoint (encode i) P)) ∨
    ∃ k, ruleOf i s = .error k ∧ exec i s = .next (s.afterFailure (encode i) (statusFail k)) := by
  rcases exec_cases i s with ⟨n | P, hr, h⟩ | ⟨k, hk, h⟩
  · exact .inl ⟨n, hr, h⟩
  · exact .inr (.inl ⟨P, hr, by rw [h, beginCommand_succeed_point]⟩)
  · exact .inr (.inr ⟨k, hk, h⟩)

section
variable (s : State) (v st : Word) (n : Nat) (P : Point)

@[simp] theorem State.afterFailure_cfg : (s.afterFailure v st).cfg = s.cfg := rfl
@[simp] theorem State.afterFailure_cmd : (s.afterFailure v st).cmd = v := rfl
@[simp] theorem State.afterFailure_status : (s.afterFailure v st).status = st := rfl
@[simp] theorem State.afterFailure_ptag : (s.afterFailure v st).ptag = s.ptag := rfl
@[simp] theorem State.afterFailure_rtag : (s.afterFailure v st).rtag = 0x0#32 := rfl
@[simp] theorem State.afterFailure_pending : (s.afterFailure v st).pending = s.pending := rfl
@[simp] theorem State.afterFailure_answers : (s.afterFailure v st).answers = s.answers := rfl
theorem State.afterFailure_getReg_operand {r : RegName} (h : r.isOperand = true) :
    (s.afterFailure v st).getReg r = s.getReg r := by cases r <;> first | rfl | cases h
@[simp] theorem State.afterInt_cfg : (s.afterInt v n).cfg = s.cfg := rfl
@[simp] theorem State.afterInt_cmd : (s.afterInt v n).cmd = v := rfl
@[simp] theorem State.afterInt_status : (s.afterInt v n).status = 0x10#32 := rfl
@[simp] theorem State.afterInt_ptag : (s.afterInt v n).ptag = s.ptag := rfl
@[simp] theorem State.afterInt_rtag : (s.afterInt v n).rtag = 0x0#32 := rfl
@[simp] theorem State.afterInt_res : (s.afterInt v n).res = n := rfl
@[simp] theorem State.afterInt_pending : (s.afterInt v n).pending = s.pending := rfl
@[simp] theorem State.afterInt_answers : (s.afterInt v n).answers = s.answers := rfl
theorem State.afterInt_getReg_operand {r : RegName} (h : r.isOperand = true) :
    (s.afterInt v n).getReg r = s.getReg r := by cases r <;> first | rfl | cases h
@[simp] theorem State.afterPoint_cfg : (s.afterPoint v P).cfg = s.cfg := by cases P <;> rfl
@[simp] theorem State.afterPoint_cmd : (s.afterPoint v P).cmd = v := by cases P <;> rfl
@[simp] theorem State.afterPoint_status : (s.afterPoint v P).status = 0x10#32 := by cases P <;> rfl
@[simp] theorem State.afterPoint_ptag : (s.afterPoint v P).ptag = s.ptag := by cases P <;> rfl
@[simp] theorem State.afterPoint_res : (s.afterPoint v P).res = 0 := by cases P <;> rfl
@[simp] theorem State.afterPoint_pending : (s.afterPoint v P).pending = s.pending := by cases P <;> rfl
@[simp] theorem State.afterPoint_answers : (s.afterPoint v P).answers = s.answers := by cases P <;> rfl
theorem State.afterPoint_getReg_operand {r : RegName} (h : r.isOperand = true) :
    (s.afterPoint v P).getReg r = s.getReg r := by
  cases P <;> cases r <;> first | rfl | cases h
end

end Sys2Proof.Machine
end

