-- ==== Sys2Proof/Tests/Slice0.lean ====
section
/-! SUPPORT. The model's own tests. Expected values are the spec's worked examples and tables, named
at each test. The second half shows, for each statement with hypotheses, concrete values that meet
them, clause by clause. -/

open Sys2Proof Sys2Proof.Machine Host

namespace Sys2Proof.Tests

/-- The next state of an outcome, if it is one. -/
def next? : Outcome State Fault Refusal → Option State
  | .next s => some s
  | .fault _ => none
  | .refused _ => none

/-- The refusal of an outcome, if it is one. -/
def refusal? : Outcome State Fault Refusal → Option Refusal
  | .next _ => none
  | .fault _ => none
  | .refused r => some r

/-- What the block reports one step after being handed the command word `w`. -/
def outcomeOf (s : State) (w : Nat) : Option (Word × Word × Word × Nat × Nat × Nat) :=
  (next? (step (s.withFetchWord 32 w))).map State.reported

/-- Reset with the operands of a modular command. -/
def modular (m a b : Nat) : State := { State.reset with mod := m, opa := a, opb := b }

/-- The toy curve `y² = x³ + 2x + 2 mod 17` of 95_test_vectors.md V6, group order 19. -/
def weierstrass17 (k x1 y1 x2 y2 : Nat) : State :=
  { State.reset with
    mod := 17, ord := 19, ca := 2, k := k, p1x := x1, p1y := y1, p2x := x2, p2y := y2 }

/-- The toy curve `3y² = x³ + 4x² + x mod 29` of 95_test_vectors.md V7, `G = (2, 12)` of order 7. -/
def montgomery29 (k x1 y1 x2 y2 : Nat) : State :=
  { State.reset with
    mod := 29, ord := 7, ca := 4, cb := 3, k := k, p1x := x1, p1y := y1, p2x := x2, p2y := y2 }

/-- `s` with one host event still to come. -/
def withEvent (s : State) (e : HostEvent) : State := { s with pending := [e] }

/-! ## Well-formedness: one ill-formed term per check -/

theorem test_wf_refuses_width_not_a_multiple_of_32 : ¬ Config.wf ⟨264, 0⟩ := by decide
theorem test_wf_refuses_width_below_256 : ¬ Config.wf ⟨224, 0⟩ := by decide
theorem test_wf_refuses_base_not_a_multiple_of_4 : ¬ Config.wf ⟨256, 2⟩ := by decide
theorem test_wf_default : Config.wf Config.default := by decide
theorem test_wf_every_command (i : Instr) : i.wf = true := by cases i <;> rfl

/-! ## Decoding: the words of 30_encoding.md R94, bit 31 first -/

theorem test_decode_montmul : decode 0b00000000000000000000000000000001#32 = .ok .montmul := by decide
theorem test_decode_barrett : decode 0b00000000000000000000000000000010#32 = .ok .barrett := by decide
theorem test_decode_modinv : decode 0b00000000000000000000000000000011#32 = .ok .modinv := by decide
theorem test_decode_wAdd : decode 0b00000000000000000000000000010000#32 = .ok .wAdd := by decide
theorem test_decode_wDbl : decode 0b00000000000000000000000000010001#32 = .ok .wDbl := by decide
theorem test_decode_wSmul : decode 0b00000000000000000000000000010010#32 = .ok .wSmul := by decide
theorem test_decode_mAdd : decode 0b00000000000000000000000000100000#32 = .ok .mAdd := by decide
theorem test_decode_mSmul : decode 0b00000000000000000000000000100010#32 = .ok .mSmul := by decide

/-- R96 names both words. -/
theorem test_decode_unassigned :
    decode 0x00000000#32 = .error .unassignedOpcode ∧
    decode 0x00000021#32 = .error .unassignedOpcode := by decide

/-- A legal opcode with one reserved bit set, lowest and highest (R96). -/
theorem test_decode_reserved :
    decode 0x00000101#32 = .error .reservedNotZero ∧
    decode 0x80000001#32 = .error .reservedNotZero := by decide

theorem test_decode_short : decodeBytes [0x01#8, 0x00#8, 0x00#8] = .error .tooFewBytes := by decide
theorem test_table_word : decodeTableWord 32 0x22 = some .mSmul := by decide
theorem test_table_word_long : decodeTableWord 64 (2 ^ 32 + 1) = none := by decide

/-! ## One command each -/

/-- 40_modular.md R121, the example. -/
theorem test_montmul : outcomeOf (modular 11 3 4) 0x01 = some (1, 0x10, 0, 5, 0, 0) := by decide
/-- R121: an even modulus is InvalidModulus. -/
theorem test_montmul_even : outcomeOf (modular 12 3 4) 0x01 = some (1, 0x01, 0, 0, 0, 0) := by decide
/-- 40_modular.md R122, the example. -/
theorem test_barrett : outcomeOf (modular 1000 1024 0) 0x02 = some (2, 0x10, 0, 24, 0, 0) := by decide
/-- `2^256 mod 11 = 9` (R121, the example): `OPB` is the high half. -/
theorem test_barrett_high : outcomeOf (modular 11 0 1) 0x02 = some (2, 0x10, 0, 9, 0, 0) := by decide
/-- 40_modular.md R123, the two examples. -/
theorem test_modinv : outcomeOf (modular 11 3 0) 0x03 = some (3, 0x10, 0, 4, 0, 0) := by decide
theorem test_modinv_fails : outcomeOf (modular 8 4 0) 0x03 = some (3, 0x02, 0, 0, 0, 0) := by decide
/-- 41_weierstrass.md R153, the example. -/
theorem test_wAdd : outcomeOf (weierstrass17 0 5 1 6 3) 0x10 = some (0x10, 0x10, 0, 0, 10, 6) := by
  decide
/-- R203: a coordinate equal to `MOD` is BadOperand. -/
theorem test_wAdd_range : outcomeOf (weierstrass17 0 5 1 6 17) 0x10 = some (0x10, 0x05, 0, 0, 0, 0) := by
  decide
/-- 41_weierstrass.md R154, the example. -/
theorem test_wDbl : outcomeOf (weierstrass17 0 5 1 0 0) 0x11 = some (0x11, 0x10, 0, 0, 6, 3) := by decide
/-- 41_weierstrass.md R155, the example and its `K = 19`. -/
theorem test_wSmul : outcomeOf (weierstrass17 3 5 1 0 0) 0x12 = some (0x12, 0x10, 0, 0, 10, 6) := by
  decide
theorem test_wSmul_order : outcomeOf (weierstrass17 19 5 1 0 0) 0x12 = some (0x12, 0x10, 1, 0, 0, 0) := by
  decide
/-- 42_montgomery_curve.md R183, the chord and the tangent. -/
theorem test_mAdd_chord :
    outcomeOf (montgomery29 0 2 12 21 17) 0x20 = some (0x20, 0x10, 0, 0, 10, 21) := by decide
theorem test_mAdd_tangent :
    outcomeOf (montgomery29 0 21 17 21 17) 0x20 = some (0x20, 0x10, 0, 0, 10, 8) := by decide
/-- 42_montgomery_curve.md R184, the example with `K = 10`, and its `K = 7`. -/
theorem test_mSmul : outcomeOf (montgomery29 10 2 12 0 0) 0x22 = some (0x22, 0x10, 0, 0, 10, 21) := by
  decide
theorem test_mSmul_order : outcomeOf (montgomery29 7 2 12 0 0) 0x22 = some (0x22, 0x10, 1, 0, 0, 0) := by
  decide
/-- R96: an illegal word is stored and fails with IllegalCommand. -/
theorem test_illegal_word : outcomeOf (modular 11 3 4) 0x21 = some (0x21, 0x04, 0, 0, 0, 0) := by decide

/-! ## The functions without a command -/

/-- The seven values of 40_modular.md R126. -/
theorem test_extendedGcd :
    extendedGcd 3 11 = (1, 4, -1) ∧ extendedGcd 4 8 = (4, 1, 0) ∧ extendedGcd 14 11 = (1, 4, -5) ∧
    extendedGcd 0 5 = (5, 0, 1) ∧ extendedGcd 5 0 = (5, 1, 0) ∧ extendedGcd 0 0 = (0, 1, 0) ∧
    extendedGcd 7 1 = (1, 0, 1) := by decide

/-- Three of the values of 40_modular.md R130. -/
theorem test_modpow :
    (modpow 2 10 1000).toOption = some 24 ∧ (modpow 0 0 7).toOption = some 1 ∧
    (modpow 5 0 1).toOption = some 0 := by decide

/-! ## The window -/

/-- Word 7 of `MOD` is its bits 255:224 (20_memory.md R63). -/
theorem test_write_top_word :
    (next? (step (withEvent (modular 5 0 0) (.write 0x11C 4 0xABCD#32)))).map (·.mod) =
      some (5 + 0xABCD * 2 ^ 224) := by decide

/-- Writes to a result register and to `STATUS` are ignored (20_memory.md R62). -/
theorem test_write_res_ignored :
    (next? (step (withEvent State.reset (.write 0x260 4 7#32)))).map (·.res) = some 0 := by decide
theorem test_write_status_ignored :
    (next? (step (withEvent State.reset (.write 0x004 4 7#32)))).map (·.status) = some 0#32 := by decide

/-- `PTAG` keeps bits 1:0 (20_memory.md R62). -/
theorem test_write_ptag :
    (next? (step (withEvent State.reset (.write 0x008 4 0xFFFFFFFE#32)))).map (·.ptag) =
      some 2#32 := by decide

/-- Word 1 of a register is its bits 63:32 (20_memory.md R61). -/
theorem test_read_word :
    (next? (step (withEvent (modular (9 * 2 ^ 32 + 5) 0 0) (.read 0x104 4)))).map (·.answers) =
      some [9#32] := by decide

/-- One access per reason of 20_memory.md R65; the last admitted offset for `W = 256` is 0x2BC. -/
theorem test_refuses_halfword :
    refusal? (step (withEvent State.reset (.read 0x100 2))) = some (.accessSize 2) := by decide
theorem test_refuses_beyond_window :
    refusal? (step (withEvent State.reset (.write 0x2C0 4 0#32))) = some (.outsideWindow 0x2C0) := by
  decide
theorem test_refuses_misaligned :
    refusal? (step (withEvent State.reset (.read 0x102 4))) = some (.misaligned 0x102) := by decide
theorem test_admits_last_word :
    (next? (step (withEvent State.reset (.read 0x2BC 4)))).isSome = true := by decide

/-- A reset event between accesses (70_reset_and_hazards.md R240). -/
theorem test_reset_event :
    (next? (step (withEvent (modular 11 3 4) .reset))).map (·.mod) = some 0 := by decide

/-! ## Witnesses: values that meet the hypotheses of each statement, clause by clause -/

/-- The composite modulus 15, where slopes can fail to invert. -/
def composite15 (k x1 y1 x2 y2 : Nat) : State :=
  { State.reset with
    mod := 15, ord := 7, ca := 1, cb := 1, k := k, p1x := x1, p1y := y1, p2x := x2, p2y := y2 }

/-- `s` with `P1INF` set. -/
def withP1Inf (s : State) : State := { s with ptag := 1#32 }

theorem witness_EncodeOfDecode : decode 0x22#32 = .ok .mSmul := by decide

theorem witness_StepRunsDecodedCommand :
    let s := withEvent (modular 11 3 4) (.write 0 4 0x01#32)
    s.pending = .write s.cfg.base 4 0x01#32 :: [] ∧ decode 0x01#32 = .ok .montmul := by decide

theorem witness_IllegalWordReported :
    (0x21#32 ∉ [0x01#32, 0x02#32, 0x03#32, 0x10#32, 0x11#32, 0x12#32, 0x20#32, 0x22#32]) ∧
    0x80000001#32 ∉ [0x01#32, 0x02#32, 0x03#32, 0x10#32, 0x11#32, 0x12#32, 0x20#32, 0x22#32] := by
  decide

/-- The first and the last admitted offset, and one access refused for each reason. -/
theorem witness_OnlyAdmittedAccessesStep :
    let admitted := fun (addr bytes : Nat) => bytes = 4 ∧ 0 ≤ addr ∧
      addr < 0 + (0x100 + 14 * (256 / 8)) ∧ (addr - 0) % 4 = 0
    admitted 0x000 4 ∧ admitted 0x2BC 4 ∧
    ¬ admitted 0x000 8 ∧ ¬ admitted 0x2C0 4 ∧ ¬ admitted 0x001 4 := by decide

theorem witness_HostReadReturnsWord :
    State.reset.cfg.wf ∧ (0x010 ≤ 0x010 ∧ 0x010 < 0x100 ∧ 0x010 % 4 = 0) ∧
    (0x010 ≤ 0x0FC ∧ 0x0FC < 0x100 ∧ 0x0FC % 4 = 0) ∧ 0 < State.reset.cfg.width / 32 ∧
    7 < State.reset.cfg.width / 32 := by decide

/-- The last operand register and the first result register, first and last word. -/
theorem witness_HostWriteStoresWord :
    State.reset.cfg.wf ∧ (0x010 ≤ 0x0FC ∧ 0x0FC < 0x100 ∧ 0x0FC % 4 = 0) ∧
    0 < State.reset.cfg.width / 32 ∧ 7 < State.reset.cfg.width / 32 ∧
    RegName.p2y.number ≤ 10 ∧ 11 ≤ RegName.res.number := by decide

theorem witness_RegisterIsLittleEndianBytes :
    State.reset.cfg.wf ∧ 0 < State.reset.cfg.width / 8 ∧ 31 < State.reset.cfg.width / 8 := by decide

theorem witness_WritesAreIdempotent_command :
    ∃ t, memWrite 0x000 0x01#32 (modular 11 3 4) = .next t := ⟨_, rfl⟩
theorem witness_WritesAreIdempotent_register :
    ∃ t, memWrite 0x11C 0xABCD#32 (modular 11 3 4) = .next t := ⟨_, rfl⟩

theorem witness_IdleStepChangesNothing : State.reset.pending = [] := rfl

theorem witness_FirstCommandAfterReset :
    (∃ i, decode 0x10#32 = .ok i) ∧ ∃ e, decode 0x00#32 = .error e :=
  ⟨⟨.wAdd, by decide⟩, ⟨.unassignedOpcode, by decide⟩⟩

theorem witness_MontmulComputes :
    (modular 1 3 4).mod % 2 = 1 ∧ (modular 11 3 4).mod % 2 = 1 ∧ (modular 0 3 4).mod = 0 ∧
    (modular 2 3 4).mod % 2 = 0 := by decide

/-- `5` and `3` are the Montgomery forms of 3 and 4 modulo 11: `2^256 mod 11 = 9`. -/
theorem witness_MontmulKeepsMontgomeryForm :
    let s := modular 11 5 3
    s.mod % 2 = 1 ∧ s.opa % s.mod = 3 * 2 ^ s.cfg.width % s.mod ∧
    s.opb % s.mod = 4 * 2 ^ s.cfg.width % s.mod := by decide

theorem witness_BarrettComputes : 0 < (modular 1 3 4).mod ∧ (modular 0 3 4).mod = 0 := by decide

theorem witness_ModinvComputes :
    (modular 0 3 0).mod = 0 ∧
    (0 < (modular 8 4 0).mod ∧ Nat.gcd (modular 8 4 0).opa (modular 8 4 0).mod ≠ 1) ∧
    (0 < (modular 1 0 0).mod ∧ Nat.gcd (modular 1 0 0).opa (modular 1 0 0).mod = 1) ∧
    (0 < (modular 11 3 0).mod ∧ Nat.gcd (modular 11 3 0).opa (modular 11 3 0).mod = 1 ∧
      4 < (modular 11 3 0).mod ∧ (modular 11 3 0).opa * 4 % (modular 11 3 0).mod = 1 % 11) := by decide

theorem witness_InvModInverts :
    (0 < 11 ∧ Nat.gcd (modN (-8) 11) 11 = 1) ∧ (0 < 4 ∧ Nat.gcd (modN (-2) 4) 4 ≠ 1) ∧
    (modN (-8) 4 = 0 ∧ 1 < 4) := by decide

theorem witness_ModpowComputesPower : (0 : Int) ≤ 0 ∧ (0 : Int) < 1 := by decide

theorem witness_RedcAgreesWithMontmul : 11 % 2 = 1 ∧ 11 < 2 ^ 256 ∧ 10 < 11 ∧ 0 < 11 := by decide

theorem witness_BarrettEstimateAgreesWithBarrett :
    0 < 1 ∧ 2 ^ (2 * 32) - 1 < 2 ^ (2 * 32) ∧ 1 ≤ 1 := by decide

/-- In range everywhere; the clauses in order: negation (`y = 0` too), tangent with and without an
inverse, equal `x` with unrelated `y`, chord with and without an inverse. -/
theorem witness_WeierstrassAddCases :
    ((1 + 16) % 17 = 0 ∧ (0 + 0) % 17 = 0) ∧
    (2 * 3 % 15 ≠ 0 ∧ Nat.gcd (2 * 3 % 15) 15 ≠ 1) ∧
    (2 * 1 % 17 ≠ 0 ∧ Nat.gcd (2 * 1 % 17) 17 = 1) ∧
    (1 ≠ 2 ∧ (1 + 2) % 15 ≠ 0) ∧
    (1 ≠ 4 ∧ Nat.gcd (modN ((4 : Nat) - (1 : Nat)) 15) 15 ≠ 1) ∧
    (5 ≠ 6 ∧ Nat.gcd (modN ((6 : Nat) - (5 : Nat)) 17) 17 = 1) := by decide

theorem witness_WAddCommand_failures :
    (modular 0 0 0).mod = 0 ∧
    (0 < (weierstrass17 0 17 1 6 3).mod ∧ (weierstrass17 0 17 1 6 3).point1.inRange 17 = false) ∧
    (0 < (weierstrass17 0 5 1 6 17).mod ∧ (weierstrass17 0 5 1 6 17).point2.inRange 17 = false) := by
  decide

theorem witness_WAddCommand_results :
    (let s := weierstrass17 0 5 1 6 3
     0 < s.mod ∧ s.point1.inRange s.mod = true ∧ s.point2.inRange s.mod = true ∧
     wAdd s.point1 s.point2 s.ca s.mod = .ok (.aff 10 6)) ∧
    (let s := composite15 0 1 1 4 2
     0 < s.mod ∧ s.point1.inRange s.mod = true ∧ s.point2.inRange s.mod = true ∧
     wAdd s.point1 s.point2 s.ca s.mod = .error .notInvertible) := by decide

theorem witness_WDblCommand :
    (modular 0 0 0).mod = 0 ∧
    (0 < (withP1Inf (weierstrass17 0 5 1 0 0)).mod ∧
      (withP1Inf (weierstrass17 0 5 1 0 0)).p1inf = true) ∧
    (let s := weierstrass17 0 17 1 0 0
     0 < s.mod ∧ s.p1inf = false ∧ s.mod ≤ s.p1x) ∧
    (let s := weierstrass17 0 5 17 0 0
     0 < s.mod ∧ s.p1inf = false ∧ s.mod ≤ s.p1y) ∧
    (let s := weierstrass17 0 5 0 0 0
     s.p1inf = false ∧ s.p1x < s.mod ∧ s.p1y < s.mod ∧ 2 * s.p1y % s.mod = 0) ∧
    (let s := composite15 0 1 3 0 0
     s.p1inf = false ∧ s.p1x < s.mod ∧ s.p1y < s.mod ∧ 2 * s.p1y % s.mod ≠ 0 ∧
     Nat.gcd (2 * s.p1y % s.mod) s.mod ≠ 1) ∧
    (let s := weierstrass17 0 5 1 0 0
     s.p1inf = false ∧ s.p1x < s.mod ∧ s.p1y < s.mod ∧ 2 * s.p1y % s.mod ≠ 0 ∧
     Nat.gcd (2 * s.p1y % s.mod) s.mod = 1) := by decide

theorem witness_WSmulCommand_failures :
    (modular 0 0 0).mod = 0 ∧ (0 < (modular 17 0 0).mod ∧ (modular 17 0 0).ord = 0) ∧
    (let s := weierstrass17 19 17 1 0 0
     0 < s.mod ∧ 0 < s.ord ∧ s.point1.inRange s.mod = false) := by decide

theorem witness_WSmulCommand_results :
    (let s := weierstrass17 3 5 1 0 0
     0 < s.mod ∧ 0 < s.ord ∧ s.point1.inRange s.mod = true ∧
     (doubleAndAdd s.k s.point1 s.ord fun Q1 Q2 => wAdd Q1 Q2 s.ca s.mod) = .ok (.aff 10 6)) ∧
    (let s := composite15 2 1 3 0 0
     0 < s.mod ∧ 0 < s.ord ∧ s.point1.inRange s.mod = true ∧
     (doubleAndAdd s.k s.point1 s.ord fun Q1 Q2 => wAdd Q1 Q2 s.ca s.mod) =
       .error .notInvertible) := by decide

theorem witness_WSmulSmallMultiples :
    (let s := weierstrass17 38 5 1 0 0
     0 < s.mod ∧ 0 < s.ord ∧ s.point1.inRange s.mod = true ∧ s.k % s.ord = 0) ∧
    (let s := withP1Inf (weierstrass17 3 99 99 0 0)
     0 < s.mod ∧ 0 < s.ord ∧ s.point1.inRange s.mod = true ∧ s.point1 = .inf) ∧
    (weierstrass17 20 5 1 0 0).k % 19 = 1 ∧ (weierstrass17 21 5 1 0 0).k % 19 = 2 := by decide

theorem witness_WeierstrassAddStaysOnCurve :
    Nat.Prime 17 ∧ (Point.aff 5 1).inRange 17 = true ∧ (Point.aff 6 3).inRange 17 = true ∧
    wIsOnCurve (.aff 5 1) 2 2 17 = true ∧ wIsOnCurve (.aff 6 3) 2 2 17 = true :=
  ⟨by norm_num, by decide, by decide, by decide, by decide⟩

theorem witness_WeierstrassCommandsComplete :
    let s := weierstrass17 3 5 1 6 3
    s.mod.Prime ∧ s.point1.inRange s.mod = true ∧ wIsOnCurve s.point1 s.ca 2 s.mod = true ∧
    0 < s.ord ∧ s.point2.inRange s.mod = true ∧ wIsOnCurve s.point2 s.ca 2 s.mod = true :=
  ⟨by norm_num [weierstrass17], by decide, by decide, by decide, by decide, by decide⟩

theorem witness_WeierstrassScalarDistributes :
    Nat.Prime 17 ∧ 16 * (4 * 2 ^ 3 + 27 * 2 ^ 2) % 17 ≠ 0 ∧ (Point.aff 5 1).inRange 17 = true ∧
    wIsOnCurve (.aff 5 1) 2 2 17 = true ∧ 0 < 19 ∧
    (doubleAndAdd 19 (.aff 5 1) (19 + 1) fun Q1 Q2 => wAdd Q1 Q2 2 17) = .ok .inf :=
  ⟨by norm_num, by decide, by decide, by decide, by decide, by decide⟩

/-- The clauses in the order of `witness_WeierstrassAddCases`; the tangent fails when `B mod p = 0`. -/
theorem witness_MontgomeryAddCases :
    ((12 + 17) % 29 = 0 ∧ (0 + 0) % 29 = 0) ∧
    (2 * 12 % 29 ≠ 0 ∧ Nat.gcd (2 * 0 * 12 % 29) 29 ≠ 1) ∧
    (2 * 12 % 29 ≠ 0 ∧ Nat.gcd (2 * 3 * 12 % 29) 29 = 1) ∧
    (1 ≠ 2 ∧ (1 + 2) % 15 ≠ 0) ∧
    (1 ≠ 4 ∧ Nat.gcd (modN ((4 : Nat) - (1 : Nat)) 15) 15 ≠ 1) ∧
    (2 ≠ 21 ∧ Nat.gcd (modN ((21 : Nat) - (2 : Nat)) 29) 29 = 1) := by decide

theorem witness_MAddCommand_failures :
    (modular 0 0 0).mod = 0 ∧
    (0 < (montgomery29 0 29 1 6 3).mod ∧ (montgomery29 0 29 1 6 3).point1.inRange 29 = false) ∧
    (0 < (montgomery29 0 5 1 6 29).mod ∧ (montgomery29 0 5 1 6 29).point2.inRange 29 = false) := by
  decide

theorem witness_MAddCommand_results :
    (let s := montgomery29 0 2 12 21 17
     0 < s.mod ∧ s.point1.inRange s.mod = true ∧ s.point2.inRange s.mod = true ∧
     mAdd s.point1 s.point2 s.ca s.cb s.mod = .ok (.aff 10 21)) ∧
    (let s := composite15 0 1 1 4 2
     0 < s.mod ∧ s.point1.inRange s.mod = true ∧ s.point2.inRange s.mod = true ∧
     mAdd s.point1 s.point2 s.ca s.cb s.mod = .error .notInvertible) := by decide

theorem witness_MSmulCommand_failures :
    (modular 0 0 0).mod = 0 ∧ (0 < (modular 29 0 0).mod ∧ (modular 29 0 0).ord = 0) ∧
    (let s := montgomery29 7 2 29 0 0
     0 < s.mod ∧ 0 < s.ord ∧ s.point1.inRange s.mod = false) := by decide

theorem witness_MSmulCommand_results :
    (let s := montgomery29 3 2 12 0 0
     0 < s.mod ∧ 0 < s.ord ∧ s.point1.inRange s.mod = true ∧
     (doubleAndAdd s.k s.point1 s.ord fun Q1 Q2 => mAdd Q1 Q2 s.ca s.cb s.mod) =
       .ok (.aff 10 21)) ∧
    (let s := composite15 2 1 3 0 0
     0 < s.mod ∧ 0 < s.ord ∧ s.point1.inRange s.mod = true ∧
     (doubleAndAdd s.k s.point1 s.ord fun Q1 Q2 => mAdd Q1 Q2 s.ca s.cb s.mod) =
       .error .notInvertible) := by decide

theorem witness_MSmulSmallMultiples :
    (let s := montgomery29 14 2 12 0 0
     0 < s.mod ∧ 0 < s.ord ∧ s.point1.inRange s.mod = true ∧ s.k % s.ord = 0) ∧
    (let s := withP1Inf (montgomery29 3 99 99 0 0)
     0 < s.mod ∧ 0 < s.ord ∧ s.point1.inRange s.mod = true ∧ s.point1 = .inf) ∧
    (montgomery29 8 2 12 0 0).k % 7 = 1 ∧
    (let s := montgomery29 9 2 12 2 12
     s.k % s.ord = 2 ∧ s.point2 = s.point1) := by decide

theorem witness_MontgomeryAddStaysOnCurve :
    Nat.Prime 29 ∧ 3 % 29 ≠ 0 ∧ (Point.aff 2 12).inRange 29 = true ∧
    (Point.aff 21 17).inRange 29 = true ∧ mIsOnCurve (.aff 2 12) 4 3 29 = true ∧
    mIsOnCurve (.aff 21 17) 4 3 29 = true :=
  ⟨by norm_num, by decide, by decide, by decide, by decide, by decide⟩

theorem witness_MontgomeryCommandsComplete :
    let s := montgomery29 3 2 12 21 17
    s.mod.Prime ∧ s.cb % s.mod ≠ 0 ∧ s.point1.inRange s.mod = true ∧
    mIsOnCurve s.point1 s.ca s.cb s.mod = true ∧ 0 < s.ord ∧ s.point2.inRange s.mod = true ∧
    mIsOnCurve s.point2 s.ca s.cb s.mod = true :=
  ⟨by norm_num [montgomery29], by decide, by decide, by decide, by decide, by decide, by decide⟩

theorem witness_MontgomeryScalarDistributes :
    Nat.Prime 29 ∧ modN (((3 : Nat) : Int) * (((4 : Nat) : Int) ^ 2 - 4)) 29 ≠ 0 ∧
    (Point.aff 2 12).inRange 29 = true ∧ mIsOnCurve (.aff 2 12) 4 3 29 = true ∧ 0 < 7 ∧
    (doubleAndAdd 7 (.aff 2 12) (7 + 1) fun Q1 Q2 => mAdd Q1 Q2 4 3 29) = .ok .inf :=
  ⟨by norm_num, by decide, by decide, by decide, by decide, by decide⟩

/-- The smallest prime, which R187 does not exclude. -/
theorem witness_MontgomeryScalarDistributes_two :
    Nat.Prime 2 ∧ modN (((1 : Nat) : Int) * (((1 : Nat) : Int) ^ 2 - 4)) 2 ≠ 0 ∧
    (Point.aff 1 1).inRange 2 = true ∧ mIsOnCurve (.aff 1 1) 1 1 2 = true ∧ 0 < 2 ∧
    (doubleAndAdd 2 (.aff 1 1) (2 + 1) fun Q1 Q2 => mAdd Q1 Q2 1 1 2) = .ok .inf :=
  ⟨by norm_num, by decide, by decide, by decide, by decide, by decide⟩

theorem witness_PointAdditionCommutes :
    0 < 15 ∧ (Point.aff 1 1).inRange 15 = true ∧ (Point.aff 4 14).inRange 15 = true := by decide

/-- Points standing for the naturals. -/
def pointValue : Point → Nat
  | .inf => 0
  | .aff x _ => x

theorem witness_DoubleAndAddIsMultiple :
    let add := fun (Q R : Point) =>
      (.ok (.aff (pointValue Q + pointValue R) 0) : Except Failure Point)
    0 < 7 ∧ pointValue .inf = 0 ∧
    ∀ Q R, True → True → ∃ T, add Q R = .ok T ∧ True ∧ pointValue T = pointValue Q + pointValue R :=
  ⟨by decide, rfl, fun _ _ _ _ => ⟨_, rfl, trivial, rfl⟩⟩

theorem witness_DoubleAndAddLeadingZeros : wAdd .inf .inf 2 17 = .ok .inf ∧ 3 < 2 ^ 2 := by decide

theorem witness_FailurePriority_next :
    (∃ t, issue 0x21#32 (modular 0 0 0) = .next t) ∧ ∃ t, issue 0x12#32 (modular 0 0 0) = .next t :=
  ⟨⟨_, rfl⟩, ⟨_, rfl⟩⟩

/-- The clauses in order; two causes at once in each but the last. -/
theorem witness_FailurePriority :
    decode 0x21#32 = .error .unassignedOpcode ∧ (modular 0 0 0).mod = 0 ∧
    ((modular 12 3 4).mod ≠ 0 ∧ (modular 12 3 4).mod % 2 = 0) ∧
    (let s := { weierstrass17 0 17 1 0 0 with ord := 0 }
     s.mod ≠ 0 ∧ s.ord = 0 ∧ s.point1.inRange s.mod = false) ∧
    (let s := weierstrass17 19 17 1 0 17
     s.mod ≠ 0 ∧ s.ord ≠ 0 ∧ s.point1.inRange s.mod = false) ∧
    (let s := weierstrass17 0 5 1 0 17
     s.mod ≠ 0 ∧ s.point1.inRange s.mod = true ∧ s.point2.inRange s.mod = false) ∧
    (let s := composite15 0 1 1 4 2
     s.mod ≠ 0 ∧ s.point1.inRange s.mod = true ∧ s.point2.inRange s.mod = true) := by decide

theorem witness_FailureHasNoPartialEffect :
    ∃ t, issue 0x01#32 (modular 12 3 4) = .next t ∧ t.rvalid = false := ⟨_, rfl, by decide⟩

theorem witness_CommandsKeepOperands : ∃ t, issue 0x10#32 (weierstrass17 0 5 1 6 3) = .next t :=
  ⟨_, rfl⟩

/-- Two states that differ in registers the command ignores (10_state.md R28), for each command. -/
theorem witness_CommandReadsOnlyItsOperands_montmul :
    AgreeOnReads .montmul (modular 11 3 4) { modular 11 3 4 with ord := 7, k := 9, res := 8 } :=
  ⟨rfl, rfl, rfl, rfl⟩
theorem witness_CommandReadsOnlyItsOperands_barrett :
    AgreeOnReads .barrett (modular 11 3 4) { modular 11 3 4 with ca := 7, ptag := 3#32, status := 5#32 } :=
  ⟨rfl, rfl, rfl, rfl⟩
theorem witness_CommandReadsOnlyItsOperands_modinv :
    AgreeOnReads .modinv (modular 11 3 4) { modular 11 3 5 with k := 9, ptag := 3#32, res := 8 } :=
  ⟨rfl, rfl, rfl⟩
theorem witness_CommandReadsOnlyItsOperands_wAdd :
    AgreeOnReads .wAdd (weierstrass17 3 5 1 6 3) { weierstrass17 4 5 1 6 3 with ord := 1, cb := 2 } :=
  ⟨rfl, rfl, rfl, rfl, rfl⟩
/-- With `P1INF` set the coordinates of `P1` are not read. -/
theorem witness_CommandReadsOnlyItsOperands_wDbl :
    AgreeOnReads .wDbl (withP1Inf (weierstrass17 0 5 1 6 3)) (withP1Inf (weierstrass17 1 7 8 9 10)) :=
  ⟨rfl, rfl, rfl, rfl⟩
theorem witness_CommandReadsOnlyItsOperands_wSmul :
    AgreeOnReads .wSmul (weierstrass17 3 5 1 6 3) { weierstrass17 3 5 1 9 9 with cb := 2, opa := 8 } :=
  ⟨rfl, rfl, rfl, rfl, rfl, rfl⟩
theorem witness_CommandReadsOnlyItsOperands_mAdd :
    AgreeOnReads .mAdd (montgomery29 3 2 12 21 17) { montgomery29 4 2 12 21 17 with ord := 1, opb := 8 } :=
  ⟨rfl, rfl, rfl, rfl, rfl, rfl⟩
theorem witness_CommandReadsOnlyItsOperands_mSmul :
    AgreeOnReads .mSmul (montgomery29 3 2 12 21 17) { montgomery29 3 2 12 9 9 with opa := 8, p3x := 1 } :=
  ⟨rfl, rfl, rfl, rfl, rfl, rfl, rfl⟩

theorem witness_ResultsAreResidues_int :
    ∃ t, exec .montmul (modular 11 3 4) = .next t ∧ t.rvalid = true := ⟨_, rfl, by decide⟩
theorem witness_ResultsAreResidues_point :
    ∃ t, exec .wAdd (weierstrass17 0 5 1 6 3) = .next t ∧ t.rvalid = true := ⟨_, rfl, by decide⟩

theorem witness_OnlyWritesAndResetChangeState_register :
    State.reset.cfg.wf ∧ ∃ t, step (withEvent (modular 5 0 0) (.write 0x11C 4 1#32)) = .next t ∧
      t.getReg .mod ≠ (modular 5 0 0).getReg .mod := ⟨by decide, _, rfl, by decide⟩
theorem witness_OnlyWritesAndResetChangeState_ptag :
    ∃ t, step (withEvent State.reset (.write 0x008 4 1#32)) = .next t ∧ t.ptag ≠ State.reset.ptag :=
  ⟨_, rfl, by decide⟩
theorem witness_OnlyWritesAndResetChangeState_status :
    ∃ t, step (withEvent State.reset (.write 0x000 4 1#32)) = .next t ∧
      t.status ≠ State.reset.status := ⟨_, rfl, by decide⟩

/-- The invariant, met by a state that is not reset: MONTMUL has succeeded. -/
theorem witness_Inv :
    (withEvent ((modular 11 3 4).afterInt 0x01#32 5) (.write 0x000 4 0x03#32)).Inv where
  cfg := by decide
  fits := fun r => by cases r <;> decide
  ptag := by decide
  rtag := by decide
  infZero := fun h => absurd h (by decide)
  outcome := .ok .montmul rfl (by decide) ⟨rfl, rfl, rfl⟩

theorem witness_StepKeepsInvariant :
    ∃ t, step (withEvent ((modular 11 3 4).afterInt 0x01#32 5) (.write 0x000 4 0x03#32)) = .next t :=
  ⟨_, rfl⟩

theorem witness_ResetStateHasInvariant : Config.wf ⟨512, 0x1000⟩ := by decide

theorem witness_NoValidPointNeverReported :
    Reachable { State.resetWith ⟨256, 0⟩ with pending := [.write 0 4 0x21#32] } :=
  .start _ (by decide) _

theorem witness_StepKeepsParameters :
    ∃ t, step (withEvent State.reset .reset) = .next t := ⟨_, rfl⟩

theorem witness_ScriptWrStoresRegister :
    let s := { modular 5 0 0 with pending := scriptWr Config.default .mod 11 ++ [HostEvent.reset] }
    s.cfg.wf ∧ RegName.mod.number ≤ 10 ∧ s.getReg .mod < 2 ^ s.cfg.width ∧ 11 < 2 ^ s.cfg.width ∧
    s.pending = scriptWr s.cfg .mod 11 ++ [HostEvent.reset] :=
  ⟨by decide, by decide, by decide, by decide, rfl⟩

theorem witness_ScriptRdReturnsRegister :
    let s := { modular 5 0 0 with pending := scriptRd Config.default .mod ++ [HostEvent.reset] }
    s.cfg.wf ∧ s.getReg .mod < 2 ^ s.cfg.width ∧ s.pending = scriptRd s.cfg .mod ++ [HostEvent.reset] :=
  ⟨by decide, by decide, rfl⟩

end Sys2Proof.Tests
end

/-! The state of the block: what reset leaves, what a write to `CMD` changes and keeps, what a
command depends on, and the invariant of the step. -/

namespace Sys2Proof.Machine

/-! ## Command words -/

theorem decode_encode (i : Instr) : decode (encode i) = .ok i := by cases i <;> rfl

/-- A word is its two fields, one above the other (30_encoding.md R90). -/
theorem rsvField_append_opcField (v : Word) : rsvField v ++ opcField v = v := by
  have h := BitVec.extractLsb'_append_extractLsb'_eq_extractLsb' (x := v) (start₁ := 0) (len₁ := 8)
    (start₂ := 8) (len₂ := 24) rfl
  exact h.trans BitVec.extractLsb'_eq_self

/-- A legal word is the word of its command (30_encoding.md R99). -/
theorem encode_of_decode {v : Word} {i : Instr} (h : decode v = .ok i) : encode i = v := by
  unfold decode at h
  split at h
  · cases h
  next hrsv =>
    rw [← rsvField_append_opcField v, not_not.mp hrsv]
    split at h
    case h_9 => cases h
    all_goals
      next hopc =>
        rw [hopc, ← Except.ok.inj h]
        rfl

theorem issue_of_decode_ok {v : Word} {i : Instr} (h : decode v = .ok i) (s : State) :
    issue v s = exec i s := by simp [issue, h]

theorem issue_of_decode_error {v : Word} {e : DecodeError} (h : decode v = .error e) (s : State) :
    issue v s = .next (s.afterFailure v 0x04#32) := by
  simp [issue, h, beginCommand_raise]

/-! ## What the rules can answer -/

/-- The failures command `i` can raise (60_exceptions.md R200 to R203, R206, R207). -/
def MayRaise (i : Instr) : Failure → Prop
  | .invalidModulus => True
  | .notInvertible => i ≠ .montmul ∧ i ≠ .barrett
  | .badOperand => isModular i = false
  | .noValidPoint | .illegalCommand => False

/-- What command `i` can answer at modulus `m`: an Integer below `m` or a point in range, by the
command's kind (40_modular.md R120), or one of the failures of `MayRaise`. -/
def MayAnswer (i : Instr) (m : Nat) : Except Failure Result → Prop
  | .ok (.int n) => isModular i = true ∧ n < m
  | .ok (.point P) => isModular i = false ∧ P.inRange m = true
  | .error k => MayRaise i k

/-- Every command tests the modulus first (60_exceptions.md R205). -/
theorem ruleOf_of_mod_eq_zero (i : Instr) {s : State} (h : s.mod = 0) :
    ruleOf i s = .error .invalidModulus := by
  cases i with
  | montmul => simp [ruleOf, ruleMontmul, montmul, h, Except.map]
  | barrett => simp [ruleOf, ruleBarrett, barrett, h, Except.map]
  | modinv => simp [ruleOf, ruleModinv, modinv, h, Except.map]
  | wAdd => simp [ruleOf, ruleWAdd, h]
  | wDbl => simp [ruleOf, ruleWDbl, h]
  | wSmul => simp [ruleOf, ruleWSmul, h]
  | mAdd => simp [ruleOf, ruleMAdd, h]
  | mSmul => simp [ruleOf, ruleMSmul, h]

/-- MONTMUL never raises NotInvertible: a power of two has an inverse modulo an odd number
(60_exceptions.md R200). -/
theorem montmul_two_pow_error {W a b N : Nat} {k : Failure} (h : montmul (2 ^ W) a b N = .error k) :
    k = .invalidModulus := by
  unfold montmul at h
  split at h
  · exact (Except.error.inj h).symm
  split at h
  · exact (Except.error.inj h).symm
  split at h
  · cases h
  next hpos hodd _ =>
    have hcop : Nat.gcd (2 ^ W % N) N = 1 := by
      have h2 : Nat.Coprime 2 N := (Nat.coprime_two_left).mpr (Nat.odd_iff.mpr (by omega))
      simpa using h2.pow_left W
    obtain ⟨r, hr, -⟩ := modInverse_of_coprime (by omega) hcop
    rw [invMod, modN_natCast, Nat.mod_mod, hr] at h
    cases h

theorem barrett_error {x m : Nat} {k : Failure} (h : barrett x m = .error k) :
    k = .invalidModulus := by
  unfold barrett at h
  split at h
  · exact (Except.error.inj h).symm
  · cases h

theorem modinv_error {a m : Nat} {k : Failure} (h : modinv a m = .error k) :
    k = .invalidModulus ∨ k = .notInvertible := by
  unfold modinv at h
  split at h
  · exact .inl (Except.error.inj h).symm
  · exact .inr (modInverse_error h)

theorem eq_error_of_map {α β ε : Type} {f : α → β} {x : Except ε α} {k : ε}
    (h : x.map f = .error k) : x = .error k := by
  cases x with
  | error e => exact congrArg _ (Except.error.inj h)
  | ok a => cases h

/-- The failures of the three modular commands. -/
theorem ruleOf_modular_error {i : Instr} (hi : i = .montmul ∨ i = .barrett ∨ i = .modinv) {s : State}
    {k : Failure} (h : ruleOf i s = .error k) : MayRaise i k := by
  rcases hi with rfl | rfl | rfl
  · obtain rfl := montmul_two_pow_error (eq_error_of_map h)
    trivial
  · obtain rfl := barrett_error (eq_error_of_map h)
    trivial
  · rcases modinv_error (eq_error_of_map h) with rfl | rfl
    · trivial
    · exact ⟨by decide, by decide⟩

theorem ruleOf_modular_mayAnswer {i : Instr} (hi : i = .montmul ∨ i = .barrett ∨ i = .modinv)
    (s : State) : MayAnswer i s.mod (ruleOf i s) := by
  rcases h : ruleOf i s with k | r
  · exact ruleOf_modular_error hi h
  · obtain ⟨n, rfl, hn⟩ := ruleOf_modular_ok hi h
    exact ⟨by rcases hi with rfl | rfl | rfl <;> rfl, hn⟩

/-! The curve commands: range checks, then a computation on points in range. -/

/-- A point computation that ends in a point in range or raises NotInvertible. -/
def InRangeOrNotInvertible (p : Nat) (x : Except Failure Point) : Prop :=
  (∃ R, x = .ok R ∧ R.inRange p = true) ∨ ∃ e, x = .error e ∧ e = .notInvertible

/-- The answers of a group law (`wAdd_answers`, `mAdd_answers`) on operands in range. -/
theorem inRangeOrNotInvertible_of_answers {p : Nat} {x : Except Failure Point} {P Q : Point}
    (hP : P.inRange p = true) (hQ : Q.inRange p = true)
    (h : x = .ok P ∨ x = .ok Q ∨ (∃ R, x = .ok R ∧ R.inRange p = true) ∨
      x = .error .notInvertible) : InRangeOrNotInvertible p x := by
  rcases h with h | h | h | h
  · exact .inl ⟨P, h, hP⟩
  · exact .inl ⟨Q, h, hQ⟩
  · exact .inl h
  · exact .inr ⟨_, h, rfl⟩

theorem wAdd_inRange {P Q : Point} (a : Nat) {p : Nat} (hp : 0 < p) (hP : P.inRange p = true)
    (hQ : Q.inRange p = true) : InRangeOrNotInvertible p (wAdd P Q a p) :=
  inRangeOrNotInvertible_of_answers hP hQ (wAdd_answers P Q a hp)

theorem mAdd_inRange {P Q : Point} (A B : Nat) {p : Nat} (hp : 0 < p) (hP : P.inRange p = true)
    (hQ : Q.inRange p = true) : InRangeOrNotInvertible p (mAdd P Q A B p) :=
  inRangeOrNotInvertible_of_answers hP hQ (mAdd_answers P Q A B hp)

theorem doubleAndAdd_inRange {add : Point → Point → Except Failure Point} {p : Nat}
    (hadd : ∀ P Q : Point, P.inRange p = true → Q.inRange p = true →
      InRangeOrNotInvertible p (add P Q))
    (k n : Nat) {P : Point} (hP : P.inRange p = true) :
    InRangeOrNotInvertible p (doubleAndAdd k P n add) :=
  doubleAndAddLoop_answers hadd _ hP _ .inf rfl

section
variable {i : Instr} (hi : isModular i = false) {p : Nat}
include hi

theorem mayAnswer_map_point {x : Except Failure Point} (hx : InRangeOrNotInvertible p x) :
    MayAnswer i p (x.map .point) := by
  obtain ⟨R, rfl, hR⟩ | ⟨_, rfl, rfl⟩ := hx
  · exact ⟨hi, hR⟩
  · constructor <;> rintro rfl <;> cases hi

theorem mayAnswer_checkPoint_error {P : Point} {e : Failure} (h : checkPoint P p = .error e) :
    MayAnswer i p (.error e) := by
  obtain ⟨rfl, -⟩ := checkPoint_error h
  exact hi

end

theorem ruleWAdd_mayAnswer (s : State) : MayAnswer .wAdd s.mod (ruleWAdd s) := by
  simp only [ruleWAdd]
  split
  · trivial
  split
  · next h1 => exact mayAnswer_checkPoint_error rfl h1
  split
  · next h2 => exact mayAnswer_checkPoint_error rfl h2
  · next hp _ h1 _ h2 =>
    exact mayAnswer_map_point rfl (wAdd_inRange _ (Nat.pos_of_ne_zero hp)
      ((checkPoint_ok_iff _ _).mp h1) ((checkPoint_ok_iff _ _).mp h2))

theorem ruleWDbl_mayAnswer (s : State) : MayAnswer .wDbl s.mod (ruleWDbl s) := by
  simp only [ruleWDbl]
  split
  · trivial
  split
  · next h1 => exact mayAnswer_checkPoint_error rfl h1
  · next hp _ h1 =>
    have hP := (checkPoint_ok_iff _ _).mp h1
    exact mayAnswer_map_point rfl (wAdd_inRange _ (Nat.pos_of_ne_zero hp) hP hP)

theorem ruleWSmul_mayAnswer (s : State) : MayAnswer .wSmul s.mod (ruleWSmul s) := by
  simp only [ruleWSmul]
  split
  · trivial
  split
  · trivial
  split
  · next h1 => exact mayAnswer_checkPoint_error rfl h1
  · next hp _ _ h1 =>
    exact mayAnswer_map_point rfl (doubleAndAdd_inRange
      (fun _ _ => wAdd_inRange _ (Nat.pos_of_ne_zero hp)) _ _ ((checkPoint_ok_iff _ _).mp h1))

theorem ruleMAdd_mayAnswer (s : State) : MayAnswer .mAdd s.mod (ruleMAdd s) := by
  simp only [ruleMAdd]
  split
  · trivial
  split
  · next h1 => exact mayAnswer_checkPoint_error rfl h1
  split
  · next h2 => exact mayAnswer_checkPoint_error rfl h2
  · next hp _ h1 _ h2 =>
    exact mayAnswer_map_point rfl (mAdd_inRange _ _ (Nat.pos_of_ne_zero hp)
      ((checkPoint_ok_iff _ _).mp h1) ((checkPoint_ok_iff _ _).mp h2))

theorem ruleMSmul_mayAnswer (s : State) : MayAnswer .mSmul s.mod (ruleMSmul s) := by
  simp only [ruleMSmul]
  split
  · trivial
  split
  · trivial
  split
  · next h1 => exact mayAnswer_checkPoint_error rfl h1
  · next hp _ _ h1 =>
    exact mayAnswer_map_point rfl (doubleAndAdd_inRange
      (fun _ _ => mAdd_inRange _ _ (Nat.pos_of_ne_zero hp)) _ _ ((checkPoint_ok_iff _ _).mp h1))

/-- What every command can answer, in one place. -/
theorem ruleOf_mayAnswer (i : Instr) (s : State) : MayAnswer i s.mod (ruleOf i s) := by
  cases i with
  | montmul => exact ruleOf_modular_mayAnswer (.inl rfl) s
  | barrett => exact ruleOf_modular_mayAnswer (.inr (.inl rfl)) s
  | modinv => exact ruleOf_modular_mayAnswer (.inr (.inr rfl)) s
  | wAdd => exact ruleWAdd_mayAnswer s
  | wDbl => exact ruleWDbl_mayAnswer s
  | wSmul => exact ruleWSmul_mayAnswer s
  | mAdd => exact ruleMAdd_mayAnswer s
  | mSmul => exact ruleMSmul_mayAnswer s

/-! ## What a command keeps, and what it depends on -/

/-- `t` differs from `s` at most in `CMD`, `STATUS`, `RTAG` and the result registers. -/
structure KeepsOperands (s t : State) : Prop where
  cfg : t.cfg = s.cfg
  ptag : t.ptag = s.ptag
  getReg : ∀ r : RegName, r.isOperand = true → t.getReg r = s.getReg r
  pending : t.pending = s.pending
  answers : t.answers = s.answers

section
variable (s : State) (v : Word)

theorem keepsOperands_afterInt (n : Nat) : KeepsOperands s (s.afterInt v n) :=
  ⟨rfl, rfl, fun _ => s.afterInt_getReg_operand v n, rfl, rfl⟩

theorem keepsOperands_afterPoint (P : Point) : KeepsOperands s (s.afterPoint v P) :=
  ⟨by simp, by simp, fun _ => s.afterPoint_getReg_operand v P, by simp, by simp⟩

theorem keepsOperands_afterFailure (st : Word) : KeepsOperands s (s.afterFailure v st) :=
  ⟨rfl, rfl, fun _ => s.afterFailure_getReg_operand v st, rfl, rfl⟩

end

theorem exec_keepsOperands {i : Instr} {s t : State} (h : exec i s = .next t) :
    t.cmd = encode i ∧ KeepsOperands s t := by
  rcases exec_answers i s with ⟨n, -, h'⟩ | ⟨P, -, h'⟩ | ⟨k, -, h'⟩ <;>
    obtain rfl := Host.Outcome.next.inj (h.symm.trans h')
  · exact ⟨rfl, keepsOperands_afterInt s _ n⟩
  · exact ⟨by simp, keepsOperands_afterPoint s _ P⟩
  · exact ⟨rfl, keepsOperands_afterFailure s _ _⟩

theorem issue_keepsOperands {v : Word} {s t : State} (h : issue v s = .next t) :
    t.cmd = v ∧ KeepsOperands s t := by
  rcases hd : decode v with e | i
  · rw [issue_of_decode_error hd] at h
    obtain rfl := Host.Outcome.next.inj h
    exact ⟨rfl, keepsOperands_afterFailure s _ _⟩
  · rw [issue_of_decode_ok hd] at h
    rw [← encode_of_decode hd]
    exact exec_keepsOperands h

/-- The rule of a command sees no register but those of R28's column "reads". -/
theorem ruleOf_congr {i : Instr} {s t : State} (h : AgreeOnReads i s t) : ruleOf i s = ruleOf i t := by
  obtain ⟨hw, hmod, h⟩ := h
  cases i with
  | montmul =>
    obtain ⟨ha, hb⟩ := h
    simp only [ruleOf, ruleMontmul, State.radix, hw, hmod, ha, hb]
  | barrett =>
    obtain ⟨ha, hb⟩ := h
    simp only [ruleOf, ruleBarrett, State.barrettInput, hw, hmod, ha, hb]
  | modinv =>
    have ha : s.opa = t.opa := h
    simp only [ruleOf, ruleModinv, hmod, ha]
  | wAdd =>
    obtain ⟨hca, h1, h2⟩ := h
    simp only [ruleOf, ruleWAdd, hmod, hca, h1, h2]
  | wDbl =>
    obtain ⟨hca, h1⟩ := h
    simp only [ruleOf, ruleWDbl, hmod, hca, h1]
  | wSmul =>
    obtain ⟨hord, hca, hk, h1⟩ := h
    simp only [ruleOf, ruleWSmul, hmod, hord, hca, hk, h1]
  | mAdd =>
    obtain ⟨hca, hcb, h1, h2⟩ := h
    simp only [ruleOf, ruleMAdd, hmod, hca, hcb, h1, h2]
  | mSmul =>
    obtain ⟨hord, hca, hcb, hk, h1⟩ := h
    simp only [ruleOf, ruleMSmul, hmod, hord, hca, hcb, hk, h1]

/-- What a successful command reports is its word and its result, whatever the state was. -/
theorem reported_beginCommand_succeed (s t : State) (v : Word) (r : Result) :
    ((s.beginCommand v).succeed r).reported = ((t.beginCommand v).succeed r).reported := by
  rcases r with n | _ | ⟨x, y⟩ <;> rfl

theorem reported_beginCommand_raise (s t : State) (v : Word) (k : Failure) :
    ((s.beginCommand v).raise k).reported = ((t.beginCommand v).raise k).reported := rfl

theorem memWrite_cfg {off : Nat} {v : Word} {s t : State} (h : memWrite off v s = .next t) :
    t.cfg = s.cfg := by
  rcases memWrite_cases h with ⟨-, ⟨i, -, he⟩ | ⟨e, -, rfl⟩⟩ | ⟨-, rfl⟩ | ⟨r, j, -, -, rfl⟩ | rfl
  · exact (exec_keepsOperands he).2.cfg
  · rfl
  · rfl
  · exact s.setReg_cfg r _
  · rfl

/-! ## Reset -/

@[simp] theorem getReg_resetWith (c : Config) (r : RegName) : (State.resetWith c).getReg r = 0 := by
  cases r <;> rfl

theorem resetWith_inv {c : Config} (hc : c.wf) : (State.resetWith c).Inv where
  cfg := hc
  fits r := by rw [getReg_resetWith]; exact Nat.two_pow_pos _
  ptag := show (0x0#32 : Word).toNat < 4 by decide
  rtag := show (0x0#32 : Word).toNat < 2 by decide
  infZero _ := ⟨rfl, rfl⟩
  outcome := .none rfl rfl ⟨rfl, rfl, rfl, rfl⟩

/-! ## The invariant -/

/-- How `STATUS`, `CMD` and the results go together is a fact about what the block reports. -/
theorem State.LastOutcome.of_reported_eq {s t : State} (h : s.LastOutcome)
    (hr : t.reported = s.reported) : t.LastOutcome := by
  simp only [State.reported, Prod.mk.injEq] at hr
  obtain ⟨hcmd, hstatus, hrtag, hres, hp3x, hp3y⟩ := hr
  have hzero : s.resultsZero → t.resultsZero := by
    simp only [State.resultsZero, hrtag, hres, hp3x, hp3y]
    exact id
  cases h with
  | none hs hc hz => exact .none (hstatus.trans hs) (hcmd.trans hc) (hzero hz)
  | ok i hs hd hz => exact .ok i (hstatus.trans hs) (hcmd ▸ hd) (by rwa [hrtag, hres, hp3x, hp3y])
  | invalidModulus i hs hd hz => exact .invalidModulus i (hstatus.trans hs) (hcmd ▸ hd) (hzero hz)
  | notInvertible i hs hd hi hz => exact .notInvertible i (hstatus.trans hs) (hcmd ▸ hd) hi (hzero hz)
  | illegalCommand e hs hd hz => exact .illegalCommand e (hstatus.trans hs) (hcmd ▸ hd) (hzero hz)
  | badOperand i hs hd hi hz => exact .badOperand i (hstatus.trans hs) (hcmd ▸ hd) hi (hzero hz)

/-- A change that leaves what the block reports keeps the invariant, if the operands still fit. -/
theorem State.Inv.of_reported_eq {s t : State} (h : s.Inv) (hr : t.reported = s.reported)
    (hcfg : t.cfg = s.cfg) (hfits : t.fits) (hptag : t.ptag.toNat < 4) : t.Inv := by
  have hr' := hr
  simp only [State.reported, Prod.mk.injEq] at hr'
  obtain ⟨-, -, hrtag, -, hp3x, hp3y⟩ := hr'
  exact {
    cfg := hcfg ▸ h.cfg
    fits := hfits
    ptag := hptag
    rtag := hrtag ▸ h.rtag
    infZero := by
      rw [State.p3inf, hrtag, hp3x, hp3y]
      exact h.infZero
    outcome := h.outcome.of_reported_eq hr }

/-- The host's side of the window is no part of the invariant. -/
theorem State.Inv.with_pending_answers {s : State} (h : s.Inv) (p : List HostEvent) (a : List Word) :
    ({ s with pending := p, answers := a } : State).Inv :=
  h.of_reported_eq rfl rfl h.fits h.ptag

theorem State.Inv.resetEvent {s : State} (h : s.Inv) : s.resetEvent.Inv :=
  (resetWith_inv h.cfg).with_pending_answers _ _

/-! A write to an operand register or to `PTAG`. -/

/-- The word number of an address in a data register's range is below `W/32`. -/
theorem lt_regWords_of_locate {c : Config} (hc : c.wf) {off j : Nat} {r : RegName}
    (h : locate c off = .data r j) : j < regWords c := by
  obtain ⟨hbytes, hwidth⟩ := regBytes_eq hc
  obtain ⟨-, hmin, -⟩ := hc
  have hlt : (off - 0x100) % regBytes c < regBytes c := Nat.mod_lt _ (by omega)
  unfold locate at h
  iterate 5
    split at h
    · cases h
  split at h
  · obtain ⟨-, rfl⟩ := Slot.data.inj h
    omega
  · cases h

theorem ptagOfWrite_lt (v : Word) : (ptagOfWrite v).toNat < 4 := by
  unfold ptagOfWrite
  bv_omega

theorem reported_setReg_operand (s : State) {r : RegName} (h : r.isOperand = true) (n : Nat) :
    (s.setReg r n).reported = s.reported := by
  cases r
  case res | p3x | p3y => cases h
  all_goals rfl

theorem State.fits.setReg {s : State} (h : s.fits) (r : RegName) {n : Nat}
    (hn : n < 2 ^ s.cfg.width) : (s.setReg r n).fits := by
  intro q
  rw [State.setReg_cfg]
  by_cases hq : q = r
  · rw [hq, State.getReg_setReg_same]
    exact hn
  · rw [State.getReg_setReg_ne _ _ _ _ hq]
    exact h q

/-- Writing a word of an operand register keeps the register below `2^W` (10_state.md R22). -/
theorem State.Inv.setReg_setWord {s : State} (h : s.Inv) {r : RegName} (hr : r.isOperand = true)
    {j : Nat} (hj : j < regWords s.cfg) (v : Word) :
    (s.setReg r (setWord (s.getReg r) j v)).Inv := by
  have hwidth := (regBytes_eq h.cfg).2
  have hold := h.fits r
  rw [hwidth] at hold
  have hnew : setWord (s.getReg r) j v < 2 ^ s.cfg.width := hwidth ▸ setWord_lt v hold hj
  exact h.of_reported_eq (reported_setReg_operand s hr _) (s.setReg_cfg r _) (h.fits.setReg r hnew)
    (by rw [State.setReg_ptag]; exact h.ptag)

/-! A write to `CMD`. -/

/-- A command's state fits when its three results do. -/
theorem State.fits.of_keepsOperands {s t : State} (h : s.fits) (hk : KeepsOperands s t)
    (hres : t.res < 2 ^ s.cfg.width) (hp3x : t.p3x < 2 ^ s.cfg.width)
    (hp3y : t.p3y < 2 ^ s.cfg.width) : t.fits := by
  intro r
  rw [hk.cfg]
  by_cases hr : r.isOperand = true
  · rw [hk.getReg r hr]
    exact h r
  · cases r
    case res => exact hres
    case p3x => exact hp3x
    case p3y => exact hp3y
    all_goals exact absurd rfl hr

section
variable {s : State} (h : s.Inv) {v : Word}
include h

theorem State.Inv.lt_of_lt_mod {n : Nat} (hn : n < s.mod) : n < 2 ^ s.cfg.width :=
  hn.trans (h.fits .mod)

theorem State.Inv.afterInt {i : Instr} (hd : decode v = .ok i) {n : Nat}
    (hn : MayAnswer i s.mod (.ok (.int n))) : (s.afterInt v n).Inv where
  cfg := h.cfg
  fits := h.fits.of_keepsOperands (keepsOperands_afterInt s v n) (h.lt_of_lt_mod hn.2)
    (Nat.two_pow_pos _) (Nat.two_pow_pos _)
  ptag := h.ptag
  rtag := show (0x0#32 : Word).toNat < 2 by decide
  infZero _ := ⟨rfl, rfl⟩
  outcome := .ok i rfl hd (by rw [if_pos hn.1]; exact ⟨rfl, rfl, rfl⟩)

theorem State.Inv.afterPoint {i : Instr} (hd : decode v = .ok i) {P : Point}
    (hP : MayAnswer i s.mod (.ok (.point P))) : (s.afterPoint v P).Inv := by
  obtain ⟨hi, hrange⟩ := hP
  have hout : (s.afterPoint v P).LastOutcome :=
    .ok i (s.afterPoint_status v P) (by rw [State.afterPoint_cmd, hd])
      (by rw [hi]; exact s.afterPoint_res v P)
  have hk := keepsOperands_afterPoint s v P
  cases P with
  | inf =>
    exact {
      cfg := h.cfg
      fits := h.fits.of_keepsOperands hk (Nat.two_pow_pos _) (Nat.two_pow_pos _) (Nat.two_pow_pos _)
      ptag := h.ptag
      rtag := show (0x1#32 : Word).toNat < 2 by decide
      infZero := fun _ => ⟨rfl, rfl⟩
      outcome := hout }
  | aff x y =>
    obtain ⟨hx, hy⟩ := of_decide_eq_true hrange
    exact {
      cfg := h.cfg
      fits := h.fits.of_keepsOperands hk (Nat.two_pow_pos _) (h.lt_of_lt_mod hx) (h.lt_of_lt_mod hy)
      ptag := h.ptag
      rtag := show (0x0#32 : Word).toNat < 2 by decide
      infZero := fun hinf => absurd hinf (by simp [State.p3inf, State.afterPoint])
      outcome := hout }

theorem State.Inv.afterFailure {st : Word} (hout : (s.afterFailure v st).LastOutcome) :
    (s.afterFailure v st).Inv where
  cfg := h.cfg
  fits := h.fits.of_keepsOperands (keepsOperands_afterFailure s v st) (Nat.two_pow_pos _)
    (Nat.two_pow_pos _) (Nat.two_pow_pos _)
  ptag := h.ptag
  rtag := show (0x0#32 : Word).toNat < 2 by decide
  infZero _ := ⟨rfl, rfl⟩
  outcome := hout

end

theorem resultsZero_afterFailure (s : State) (v st : Word) : (s.afterFailure v st).resultsZero :=
  ⟨rfl, rfl, rfl, rfl⟩

theorem lastOutcome_afterFailure {i : Instr} {k : Failure} (hk : MayRaise i k) (s : State) {v : Word}
    (hd : decode v = .ok i) : (s.afterFailure v (statusFail k)).LastOutcome := by
  have hz := resultsZero_afterFailure s v (statusFail k)
  cases k with
  | invalidModulus => exact .invalidModulus i rfl hd hz
  | notInvertible => exact .notInvertible i rfl hd hk hz
  | badOperand => exact .badOperand i rfl hd hk hz
  | noValidPoint => exact hk.elim
  | illegalCommand => exact hk.elim

theorem State.Inv.exec {i : Instr} {s t : State} (h : s.Inv) (he : exec i s = .next t) : t.Inv := by
  have hrule := ruleOf_mayAnswer i s
  have hd := decode_encode i
  rcases exec_answers i s with ⟨n, hr, h'⟩ | ⟨P, hr, h'⟩ | ⟨k, hr, h'⟩ <;>
    obtain rfl := Host.Outcome.next.inj (he.symm.trans h') <;> rw [hr] at hrule
  · exact h.afterInt hd hrule
  · exact h.afterPoint hd hrule
  · exact h.afterFailure (lastOutcome_afterFailure hrule s hd)

theorem State.Inv.illegalWord {s : State} (h : s.Inv) {v : Word} {e : DecodeError}
    (hd : decode v = .error e) : (s.afterFailure v 0x04#32).Inv :=
  h.afterFailure (.illegalCommand e rfl hd (resultsZero_afterFailure s v _))

theorem State.Inv.memWrite {off : Nat} {v : Word} {s t : State} (h : s.Inv)
    (hw : memWrite off v s = .next t) : t.Inv := by
  rcases memWrite_cases hw with ⟨-, ⟨i, -, he⟩ | ⟨e, hd, rfl⟩⟩ | ⟨-, rfl⟩ | ⟨r, j, hl, hr, rfl⟩ | rfl
  · exact h.exec he
  · exact h.illegalWord hd
  · exact h.of_reported_eq rfl rfl h.fits (ptagOfWrite_lt v)
  · exact h.setReg_setWord hr (lt_regWords_of_locate h.cfg hl) v
  · exact h

/-! ## The statements -/

/-- Settles O54: by what a step can do, and for a command by what its rule can answer. -/
theorem stepKeepsInvariant : Obligations.StepKeepsInvariant := by
  intro s t h hstep
  rcases step_cases hstep with ⟨-, rfl⟩ | ⟨rest, ⟨-, rfl⟩ | ⟨_, _, _, -, -, rfl⟩ |
    ⟨_, _, _, _, -, -, hw⟩⟩
  · exact h
  · exact (h.with_pending_answers rest s.answers).resetEvent
  · exact h.with_pending_answers rest _
  · exact (h.with_pending_answers rest s.answers).memWrite hw

/-- Settles O49, through `KeepsOperands`. -/
theorem commandsKeepOperands : Obligations.CommandsKeepOperands := by
  intro v s t h
  obtain ⟨hcmd, hk⟩ := issue_keepsOperands h
  exact ⟨hcmd, hk.ptag, fun r hr => hk.getReg r (decide_eq_true hr), hk.cfg, hk.pending, hk.answers⟩

/-- Settles O50: the two runs have one rule outcome, and a report shows nothing else. -/
theorem commandReadsOnlyItsOperands : Obligations.CommandReadsOnlyItsOperands := by
  intro i s t h
  have hrule := ruleOf_congr h
  rcases exec_cases i s with ⟨r, hr, hs⟩ | ⟨k, hk, hs⟩
  · exact ⟨_, _, hs, exec_of_ok (hrule ▸ hr), reported_beginCommand_succeed s t _ r⟩
  · exact ⟨_, _, hs, exec_of_error (hrule ▸ hk), reported_beginCommand_raise s t _ k⟩

/-- Settles O56, by what a step can do. -/
theorem stepKeepsParameters : Obligations.StepKeepsParameters := by
  intro s t hstep
  rcases step_cases hstep with ⟨-, rfl⟩ | ⟨rest, ⟨-, rfl⟩ | ⟨_, _, _, -, -, rfl⟩ |
    ⟨_, _, _, _, -, -, hw⟩⟩
  · rfl
  · rfl
  · rfl
  · rw [memWrite_cfg hw]

/-- Settles O17. -/
theorem resetStateIsZero : Obligations.ResetStateIsZero := by
  intro c
  refine ⟨rfl, rfl, rfl, rfl, getReg_resetWith c, rfl, ?_, ?_, ?_⟩
  · simp [State.rvalid, State.resetWith]
  · simp [State.point1, State.p1inf, State.resetWith]
  · simp [State.point2, State.p2inf, State.resetWith]

/-- Settles O18: the reset state has modulus zero. -/
theorem firstCommandAfterReset : Obligations.FirstCommandAfterReset := by
  refine fun c v => ⟨fun ⟨i, hd⟩ => ?_, fun ⟨e, hd⟩ => issue_of_decode_error hd _⟩
  rw [issue_of_decode_ok hd, exec_of_error (ruleOf_of_mod_eq_zero i rfl), encode_of_decode hd,
    beginCommand_raise, statusFail_invalidModulus]

/-- Settles O53. -/
theorem resetStateHasInvariant : Obligations.ResetStateHasInvariant :=
  ⟨resetWith_inv (by decide), fun _ => resetWith_inv⟩

end Sys2Proof.Machine

/-! The register window: which accesses take a step, what a read of each offset returns and what a
write of it does, a register as bytes, and why writing a word twice is writing it once. -/

namespace Sys2Proof.Machine

/-! ## Admitted and refused accesses -/

theorem hostEvent_read_of_accept_error {s : State} {addr bytes : Nat} {r : Refusal}
    (h : accept s.cfg addr bytes = .error r) : hostEvent (.read addr bytes) s = .refused r := by
  simp [hostEvent, h]

theorem hostEvent_write_of_accept_error {s : State} {addr bytes : Nat} {r : Refusal}
    (h : accept s.cfg addr bytes = .error r) (v : Word) :
    hostEvent (.write addr bytes v) s = .refused r := by
  simp [hostEvent, h]

/-- The words below the data registers lie inside the window, whatever the parameters. -/
theorem lt_windowSize_of_lt {c : Config} {off : Nat} (h : off < 0x100) : off < windowSize c := by
  unfold windowSize
  omega

/-- The word numbers `j < W/32` are those whose four bytes lie in the register (20_memory.md R63). -/
theorem four_mul_lt_regBytes {c : Config} (hc : c.wf) {j : Nat} (hj : j < regWords c) :
    4 * j < regBytes c := by
  rw [(regBytes_eq hc).1]
  omega

/-! ## What a read returns (20_memory.md R61) -/

theorem memRead_reserved (s : State) {off : Nat} (h : 0x010 ≤ off) (h' : off < 0x100) :
    memRead s off = 0#32 := by
  simp [memRead, locate_reserved h h']

theorem memRead_data {s : State} {r : RegName} {j : Nat} (hj : 4 * j < regBytes s.cfg) :
    memRead s (regOffset s.cfg r + 4 * j) = getWord (s.getReg r) j := by
  simp [memRead, locate_data hj]

/-- Byte `b` of word `j` is byte `4 j + b` of the value (20_memory.md R63, R64). -/
theorem extractLsb'_getWord (v j : Nat) {b : Nat} (hb : b < 4) :
    (getWord v j).extractLsb' (8 * b) 8 = BitVec.ofNat 8 (v / 2 ^ (8 * (4 * j + b))) := by
  apply BitVec.eq_of_getLsbD_eq
  intro i hi
  have hin : 8 * b + i < 32 := by omega
  have hpos : 8 * b + i + 32 * j = i + 8 * (4 * j + b) := by omega
  simp only [getWord, BitVec.getLsbD_extractLsb', BitVec.getLsbD_ofNat, Nat.testBit_div_two_pow,
    hi, hin, hpos, decide_true, Bool.true_and]

/-! ## What a write does (20_memory.md R62), by what the word is -/

section
variable {s : State} {off : Nat} (v : Word)

theorem memWrite_cmd (hl : locate s.cfg off = .cmd) : memWrite off v s = issue v s := by
  simp [memWrite, hl]

theorem memWrite_ptag (hl : locate s.cfg off = .ptag) :
    memWrite off v s = .next { s with ptag := ptagOfWrite v } := by
  simp [memWrite, hl]

theorem memWrite_ignored (hl : locate s.cfg off ∈ [.status, .rtag, .reserved]) :
    memWrite off v s = .next s := by
  simp only [List.mem_cons, List.not_mem_nil, or_false] at hl
  rcases hl with hl | hl | hl <;> simp [memWrite, hl]

theorem memWrite_operand {r : RegName} {j : Nat} (hl : locate s.cfg off = .data r j)
    (hr : r.isOperand = true) :
    memWrite off v s = .next (s.setReg r (setWord (s.getReg r) j v)) := by
  simp [memWrite, hl, hr]

theorem memWrite_result {r : RegName} {j : Nat} (hl : locate s.cfg off = .data r j)
    (hr : r.isOperand = false) : memWrite off v s = .next s := by
  simp [memWrite, hl, hr]

end

theorem ptagOfWrite_eq (v : Word) : ptagOfWrite v = BitVec.ofNat 32 (v.toNat % 4) := by
  apply BitVec.eq_of_toNat_eq
  simp [ptagOfWrite]

/-! ## A command run twice (20_memory.md R67, 10_state.md R35) -/

section
variable {s t : State} (h : KeepsOperands s t)
include h

theorem KeepsOperands.point1_eq : t.point1 = s.point1 := by
  have hx : t.p1x = s.p1x := h.getReg .p1x rfl
  have hy : t.p1y = s.p1y := h.getReg .p1y rfl
  unfold State.point1 State.p1inf
  rw [h.ptag, hx, hy]

theorem KeepsOperands.point2_eq : t.point2 = s.point2 := by
  have hx : t.p2x = s.p2x := h.getReg .p2x rfl
  have hy : t.p2y = s.p2y := h.getReg .p2y rfl
  unfold State.point2 State.p2inf
  rw [h.ptag, hx, hy]

/-- No command reads what a command writes (10_state.md R28). -/
theorem KeepsOperands.agreeOnReads (i : Instr) : AgreeOnReads i t s := by
  have hreg := h.getReg
  refine ⟨by rw [h.cfg], hreg .mod rfl, ?_⟩
  cases i with
  | montmul => exact ⟨hreg .opa rfl, hreg .opb rfl⟩
  | barrett => exact ⟨hreg .opa rfl, hreg .opb rfl⟩
  | modinv => exact hreg .opa rfl
  | wAdd => exact ⟨hreg .ca rfl, h.point1_eq, h.point2_eq⟩
  | wDbl => exact ⟨hreg .ca rfl, h.point1_eq⟩
  | wSmul => exact ⟨hreg .ord rfl, hreg .ca rfl, hreg .k rfl, h.point1_eq⟩
  | mAdd => exact ⟨hreg .ca rfl, hreg .cb rfl, h.point1_eq, h.point2_eq⟩
  | mSmul => exact ⟨hreg .ord rfl, hreg .ca rfl, hreg .cb rfl, hreg .k rfl, h.point1_eq⟩

end

theorem beginCommand_succeed_twice (s : State) (v : Word) (r : Result) :
    (((s.beginCommand v).succeed r).beginCommand v).succeed r = (s.beginCommand v).succeed r := by
  rcases r with n | _ | ⟨x, y⟩ <;> rfl

theorem beginCommand_raise_twice (s : State) (v : Word) (k : Failure) :
    (((s.beginCommand v).raise k).beginCommand v).raise k = (s.beginCommand v).raise k := rfl

/-- The second run has the rule outcome of the first, and writes it over itself. -/
theorem exec_idempotent {i : Instr} {s t : State} (h : exec i s = .next t) : exec i t = .next t := by
  have hrule : ruleOf i t = ruleOf i s := ruleOf_congr ((exec_keepsOperands h).2.agreeOnReads i)
  rcases exec_cases i s with ⟨r, hr, h'⟩ | ⟨k, hk, h'⟩ <;>
    obtain rfl := Host.Outcome.next.inj (h.symm.trans h')
  · rw [exec_of_ok (hrule.trans hr), beginCommand_succeed_twice]
  · rw [exec_of_error (hrule.trans hk), beginCommand_raise_twice]

theorem issue_idempotent {v : Word} {s t : State} (h : issue v s = .next t) : issue v t = .next t := by
  rcases hd : decode v with e | i
  · rw [issue_of_decode_error hd] at h ⊢
    obtain rfl := Host.Outcome.next.inj h
    rfl
  · rw [issue_of_decode_ok hd] at h ⊢
    exact exec_idempotent h

/-! ## The statements -/

/-- Settles O10: `accept` decides, and an admitted write always answers. -/
theorem onlyAdmittedAccessesStep : Obligations.OnlyAdmittedAccessesStep := by
  intro s addr bytes v
  refine ⟨fun ⟨hbytes, hlo, hhi, h4⟩ => ?_, fun hnot => ?_⟩
  · obtain ⟨off, rfl⟩ := Nat.exists_eq_add_of_le hlo
    rw [Nat.add_sub_cancel_left] at h4
    have hoff : off < windowSize s.cfg := Nat.lt_of_add_lt_add_left hhi
    rw [hbytes, hostEvent_read hoff h4, hostEvent_write v hoff h4]
    exact ⟨⟨_, rfl⟩, memWrite_next off v s⟩
  · rcases ha : accept s.cfg addr bytes with r | off
    · exact ⟨⟨r, hostEvent_read_of_accept_error ha⟩, ⟨r, hostEvent_write_of_accept_error ha v⟩⟩
    · obtain ⟨hbytes, rfl, hoff, h4⟩ := (accept_ok_iff _ _ _ _).mp ha
      exact absurd ⟨hbytes, Nat.le_add_right _ _, Nat.add_lt_add_left hoff _,
        (Nat.add_sub_cancel_left ..).symm ▸ h4⟩ hnot

/-- Settles O11. -/
theorem hostReadReturnsWord : Obligations.HostReadReturnsWord := by
  intro s hc reads
  have hread : ∀ {off : Nat} {w : Word}, off < windowSize s.cfg → off % 4 = 0 →
      memRead s off = w → reads off w := fun hlt h4 hw => hw ▸ hostEvent_read hlt h4
  have hlow : ∀ {off : Nat}, off < 0x100 → off < windowSize s.cfg := lt_windowSize_of_lt
  refine ⟨hread (hlow (by decide)) rfl rfl, hread (hlow (by decide)) rfl rfl,
    hread (hlow (by decide)) rfl rfl, hread (hlow (by decide)) rfl rfl,
    fun off h h' h4 => hread (hlow h') h4 (memRead_reserved s h h'), fun r j hj => ?_⟩
  have hj4 : 4 * j < regBytes s.cfg := four_mul_lt_regBytes hc hj
  exact hread (regOffset_lt_windowSize hj4) (regOffset_aligned hc r j) (memRead_data hj4)

/-- Settles O12, by what the word at each offset is. -/
theorem hostWriteStoresWord : Obligations.HostWriteStoresWord := by
  intro s v hc writes
  obtain ⟨hcmd, hstatus, hptag, hrtag⟩ := locate_control s.cfg
  have hlow : ∀ {off : Nat}, off < 0x100 → off % 4 = 0 →
      hostEvent (.write (s.cfg.base + off) 4 v) s = memWrite off v s :=
    fun h h4 => hostEvent_write v (lt_windowSize_of_lt h) h4
  refine ⟨(hlow (by decide) rfl).trans (memWrite_cmd v hcmd),
    (hlow (by decide) rfl).trans (memWrite_ignored v (by simp [hstatus])),
    ptagOfWrite_eq v ▸ (hlow (by decide) rfl).trans (memWrite_ptag v hptag),
    (hlow (by decide) rfl).trans (memWrite_ignored v (by simp [hrtag])),
    fun off h h' h4 => (hlow h' h4).trans (memWrite_ignored v (by simp [locate_reserved h h'])),
    fun r j hj => ?_⟩
  have hj4 : 4 * j < regBytes s.cfg := four_mul_lt_regBytes hc hj
  have hdata := hostEvent_write v (regOffset_lt_windowSize (r := r) hj4) (regOffset_aligned hc r j)
  refine ⟨fun hr => ⟨setWord (s.getReg r) j v,
    hdata.trans (memWrite_operand v (locate_data hj4) (decide_eq_true hr)), fun i => ?_⟩,
    fun hr => hdata.trans (memWrite_result v (locate_data hj4) (decide_eq_false (by omega)))⟩
  rw [testBit_setWord]
  by_cases hlo : i < 32 * j
  · rw [if_pos hlo, if_neg (by omega)]
  by_cases hhi : i < 32 * j + 32
  · rw [if_neg hlo, if_pos (by omega), if_pos (by omega), BitVec.getLsbD]
  · rw [if_neg hlo, if_neg (by omega), if_neg (by omega)]

/-- Settles O13: byte `i` is byte `i mod 4` of word `i / 4`. -/
theorem registerIsLittleEndianBytes : Obligations.RegisterIsLittleEndianBytes := by
  intro s r i hc hi
  have hj4 : 4 * (i / 4) < regBytes s.cfg := by
    unfold regBytes
    omega
  calc windowByte s (regOffset s.cfg r + 4 * (i / 4)) (i % 4)
      = (getWord (s.getReg r) (i / 4)).extractLsb' (8 * (i % 4)) 8 := by
        rw [windowByte, memRead_data hj4]
    _ = BitVec.ofNat 8 (s.getReg r / 2 ^ (8 * (4 * (i / 4) + i % 4))) :=
        extractLsb'_getWord _ _ (Nat.mod_lt _ (by decide))
    _ = BitVec.ofNat 8 (s.getReg r / 2 ^ (8 * i)) := by rw [Nat.div_add_mod]

/-- Settles O14: a write keeps the layout of the window, and each of its effects repeats itself. -/
theorem writesAreIdempotent : Obligations.WritesAreIdempotent := by
  intro off v s t h
  have hcfg := memWrite_cfg h
  rcases memWrite_cases h with ⟨hl, -⟩ | ⟨hl, rfl⟩ | ⟨r, j, hl, hr, rfl⟩ | rfl
  · rw [memWrite_cmd v hl] at h
    rw [memWrite_cmd v (hcfg ▸ hl)]
    exact issue_idempotent h
  · exact memWrite_ptag v hl
  · rw [memWrite_operand v (hcfg ▸ hl) hr, State.getReg_setReg_same, setWord_setWord,
      State.setReg_setReg]
  · exact h

end Sys2Proof.Machine

/-! The encoding of commands (30_encoding.md): the decoder, the opcode table and the bytes of a word
all say which word is whose; what a step does with a word; and the script lines `wr` and `rd`. -/

namespace Sys2Proof.Machine

/-! ## The command words -/

theorem decode_eq_ok_iff {v : Word} {i : Instr} : decode v = .ok i ↔ v = encode i :=
  ⟨fun h => (encode_of_decode h).symm, fun h => h ▸ decode_encode i⟩

theorem encode_injective : Function.Injective encode := fun i _ h =>
  Except.ok.inj ((decode_encode i).symm.trans (decode_eq_ok_iff.mpr h))

theorem exists_decode_error_iff {v : Word} : (∃ e, decode v = .error e) ↔ ¬ ∃ i, v = encode i := by
  simp only [← decode_eq_ok_iff]
  cases decode v <;> simp

/-- The commands in the order of the opcode table (30_encoding.md R94). -/
def allCommands : List Instr :=
  [.montmul, .barrett, .modinv, .wAdd, .wDbl, .wSmul, .mAdd, .mSmul]

theorem mem_allCommands (i : Instr) : i ∈ allCommands := by cases i <;> decide

/-- The eight words of 30_encoding.md R94 are the words of the commands. -/
theorem mem_map_encode_iff {v : Word} : v ∈ allCommands.map encode ↔ ∃ i, v = encode i := by
  simp [mem_allCommands, eq_comm]

theorem rsvField_encode (i : Instr) : rsvField (encode i) = 0#24 := by cases i <;> rfl

/-- A command word is known by its two fields, since a word is its two fields. -/
theorem exists_eq_encode_iff {v : Word} : (∃ i, v = encode i) ↔
    rsvField v = 0#24 ∧ opcField v ∈ allCommands.map fun i => opcField (encode i) := by
  refine ⟨?_, fun ⟨hrsv, hopc⟩ => ?_⟩
  · rintro ⟨i, rfl⟩
    exact ⟨rsvField_encode i, List.mem_map.mpr ⟨i, mem_allCommands i, rfl⟩⟩
  · obtain ⟨i, -, hi⟩ := List.mem_map.mp hopc
    refine ⟨i, ?_⟩
    calc v = rsvField v ++ opcField v := (rsvField_append_opcField v).symm
      _ = rsvField (encode i) ++ opcField (encode i) := by rw [hrsv, rsvField_encode, hi]
      _ = encode i := rsvField_append_opcField _

/-! ## The opcode table (30_encoding.md R95) -/

/-- The row of a command: every bit of the word is compared. -/
def commandRow (i : Instr) : OpcodeRow := ⟨0xFFFFFFFF#32, encode i, i⟩

theorem opcodeTable_eq : opcodeTable = allCommands.map commandRow := rfl

theorem and_commandRow_mask (v : Word) (i : Instr) : v &&& (commandRow i).mask = v :=
  BitVec.and_allOnes

theorem decodeByTable_eq_find (v : Word) :
    decodeByTable v = allCommands.find? fun i => v == encode i := by
  rw [decodeByTable, opcodeTable_eq, List.find?_map, Option.map_map]
  simp only [Function.comp_def, and_commandRow_mask]
  exact Option.map_id'

theorem decodeByTable_eq_some_iff {v : Word} {i : Instr} :
    decodeByTable v = some i ↔ v = encode i := by
  rw [decodeByTable_eq_find]
  refine ⟨fun h => by simpa using List.find?_some h, ?_⟩
  rintro rfl
  obtain ⟨j, hj⟩ : ∃ j, allCommands.find? (fun j => encode i == encode j) = some j :=
    Option.isSome_iff_exists.mp (List.find?_isSome.mpr ⟨i, mem_allCommands i, by simp⟩)
  have hij : encode i = encode j := by simpa using List.find?_some hj
  rw [hj, encode_injective hij]

/-- Two rows that match one word are rows of one command. -/
theorem eq_of_commandRow_match {v : Word} {i j : Instr}
    (hi : v &&& (commandRow i).mask = (commandRow i).pattern)
    (hj : v &&& (commandRow j).mask = (commandRow j).pattern) : i = j := by
  rw [and_commandRow_mask] at hi hj
  exact encode_injective (hi.symm.trans hj)

/-! ## The bytes of a word (20_memory.md R64) -/

theorem wordOfBytes_wordBytes (v : Word) :
    wordOfBytes (v.extractLsb' 0 8) (v.extractLsb' 8 8) (v.extractLsb' 16 8) (v.extractLsb' 24 8) =
      v := by
  unfold wordOfBytes
  rw [BitVec.extractLsb'_append_extractLsb'_eq_extractLsb' (start₁ := 16) (len₁ := 8) rfl,
    BitVec.extractLsb'_append_extractLsb'_eq_extractLsb' (start₁ := 8) (len₁ := 8) rfl,
    BitVec.extractLsb'_append_extractLsb'_eq_extractLsb' (start₁ := 0) (len₁ := 8) rfl]
  exact BitVec.extractLsb'_eq_self

theorem decodeBytes_wordBytes_append (v : Word) (rest : List Byte) :
    decodeBytes (wordBytes v ++ rest) = (decode v).map fun i => (i, rest) := by
  simp only [wordBytes, List.cons_append, List.nil_append, decodeBytes, wordOfBytes_wordBytes]
  cases decode v <;> rfl

theorem decodeTableWord_toNat (v : Word) : decodeTableWord 32 v.toNat = (decode v).toOption := by
  have hv : v.toNat % 2 ^ 32 = v.toNat := Nat.mod_eq_of_lt v.isLt
  have hb := decodeBytes_wordBytes_append v []
  rw [List.append_nil] at hb
  simp only [decodeTableWord, hv, v.isLt, if_true, BitVec.ofNat_toNat, BitVec.setWidth_eq, hb]
  cases decode v <;> rfl

/-! ## Runs of the machine, one word of a register at a time -/

theorem run_succ_of_step {M : Host.Core} {s t : M.State} (h : M.step s = .next t) (k : Nat) :
    M.run (k + 1) s = M.run k t := by rw [Host.Core.run, h]

/-- `k` steps of the machine from `s` end in `t`. -/
def Runs (k : Nat) (s t : State) : Prop := core.run k s = .next t

theorem Runs.zero (s : State) : Runs 0 s s := rfl

theorem Runs.succ {k : Nat} {s t u : State} (hstep : step s = .next t) (h : Runs k t u) :
    Runs (k + 1) s u :=
  (run_succ_of_step (M := core) (s := s) (t := t) hstep k).trans h

/-- `s` with the events `q` still to come (log 3). -/
def State.withPending (s : State) (q : List HostEvent) : State := { s with pending := q }

/-- `s` after the host has also been answered with `ws` (log 4). -/
def State.withAnswers (s : State) (ws : List Word) : State := { s with answers := s.answers ++ ws }

section
variable (s : State) (r : RegName) (q : List HostEvent) (ws : List Word)

theorem State.withPending_of_eq {q : List HostEvent} (h : s.pending = q) : s.withPending q = s := by
  subst h
  rfl

theorem step_withPending_cons (e : HostEvent) :
    step (s.withPending (e :: q)) = hostEvent e (s.withPending q) := step_event rfl

@[simp] theorem State.withPending_cfg : (s.withPending q).cfg = s.cfg := rfl
@[simp] theorem State.getReg_withPending : (s.withPending q).getReg r = s.getReg r := by
  cases r <;> rfl
theorem State.setReg_withPending (x : Nat) :
    (s.withPending q).setReg r x = (s.setReg r x).withPending q := by cases r <;> rfl

@[simp] theorem State.withAnswers_cfg : (s.withAnswers ws).cfg = s.cfg := rfl
@[simp] theorem State.getReg_withAnswers : (s.withAnswers ws).getReg r = s.getReg r := by
  cases r <;> rfl
theorem State.withAnswers_nil : s.withAnswers [] = s := by
  unfold State.withAnswers
  rw [List.append_nil]
theorem State.withAnswers_withAnswers (ws' : List Word) :
    (s.withAnswers ws).withAnswers ws' = s.withAnswers (ws ++ ws') := by
  unfold State.withAnswers
  rw [List.append_assoc]

end

section
variable {s : State} (hc : s.cfg.wf) (r : RegName)
include hc

/-- The step that performs one write of a `wr` line. -/
theorem step_writeAt_register (hr : r.isOperand = true) {j : Nat} (hj : j < regWords s.cfg) (w : Word)
    (q : List HostEvent) :
    step (s.withPending (writeAt s.cfg (regOffset s.cfg r + 4 * j) w :: q)) =
      .next ((s.setReg r (setWord (s.getReg r) j w)).withPending q) := by
  have hj4 := four_mul_lt_regBytes hc hj
  calc step (s.withPending (writeAt s.cfg (regOffset s.cfg r + 4 * j) w :: q))
      = hostEvent (writeAt s.cfg (regOffset s.cfg r + 4 * j) w) (s.withPending q) :=
        step_withPending_cons ..
    _ = memWrite (regOffset s.cfg r + 4 * j) w (s.withPending q) :=
        hostEvent_write (s := s.withPending q) w (regOffset_lt_windowSize hj4)
          (regOffset_aligned hc r j)
    _ = .next ((s.setReg r (setWord (s.getReg r) j w)).withPending q) := by
        rw [← s.withPending_cfg q,
          memWrite_operand (s := s.withPending q) w (locate_data hj4) hr, State.getReg_withPending,
          State.setReg_withPending]

/-- The step that performs one read of an `rd` line. -/
theorem step_readAt_register {j : Nat} (hj : j < regWords s.cfg) (q : List HostEvent) :
    step (s.withPending (readAt s.cfg (regOffset s.cfg r + 4 * j) :: q)) =
      .next ((s.withAnswers [getWord (s.getReg r) j]).withPending q) := by
  have hj4 := four_mul_lt_regBytes hc hj
  calc step (s.withPending (readAt s.cfg (regOffset s.cfg r + 4 * j) :: q))
      = hostEvent (readAt s.cfg (regOffset s.cfg r + 4 * j)) (s.withPending q) :=
        step_withPending_cons ..
    _ = .next ((s.withPending q).withAnswers
          [memRead (s.withPending q) (regOffset s.cfg r + 4 * j)]) :=
        hostEvent_read (s := s.withPending q) (regOffset_lt_windowSize hj4)
          (regOffset_aligned hc r j)
    _ = .next ((s.withAnswers [getWord (s.getReg r) j]).withPending q) := by
        rw [← s.withPending_cfg q, memRead_data (s := s.withPending q) hj4, s.getReg_withPending]
        rfl

end

/-! ## The script line `wr` (30_encoding.md R98) -/

/-- `x` with each word of `v` whose number is in `js` written over it. -/
def copyWords (v : Nat) (js : List Nat) (x : Nat) : Nat :=
  js.foldl (fun y j => setWord y j (getWord v j)) x

theorem copyWords_nil (v x : Nat) : copyWords v [] x = x := rfl

theorem copyWords_cons (v j : Nat) (js : List Nat) (x : Nat) :
    copyWords v (j :: js) x = copyWords v js (setWord x j (getWord v j)) :=
  List.foldl_cons ..

theorem copyWords_lt (v : Nat) {n : Nat} (js : List Nat) (hjs : ∀ j ∈ js, j < n) {x : Nat}
    (hx : x < 2 ^ (32 * n)) : copyWords v js x < 2 ^ (32 * n) := by
  induction js generalizing x with
  | nil => rwa [copyWords_nil]
  | cons j js ih =>
    obtain ⟨hj, hjs⟩ := List.forall_mem_cons.mp hjs
    rw [copyWords_cons]
    exact ih hjs (setWord_lt _ hx hj)

/-- Copying leaves the words of `v` where they already are. -/
theorem getWord_copyWords_of_eq {v i : Nat} (js : List Nat) {x : Nat}
    (h : getWord x i = getWord v i) : getWord (copyWords v js x) i = getWord v i := by
  induction js generalizing x with
  | nil => rwa [copyWords_nil]
  | cons j js ih =>
    rw [copyWords_cons]
    apply ih
    by_cases hij : i = j
    · rw [hij, getWord_setWord_same]
    · rw [getWord_setWord_ne _ _ hij, h]

theorem getWord_copyWords_of_mem {v i : Nat} {js : List Nat} (hi : i ∈ js) (x : Nat) :
    getWord (copyWords v js x) i = getWord v i := by
  induction js generalizing x with
  | nil => cases hi
  | cons j js ih =>
    rw [copyWords_cons]
    rcases List.mem_cons.mp hi with rfl | hi
    · exact getWord_copyWords_of_eq js (getWord_setWord_same ..)
    · exact ih hi _

theorem copyWords_range {v x n : Nat} (hv : v < 2 ^ (32 * n)) (hx : x < 2 ^ (32 * n)) :
    copyWords v (List.range n) x = v :=
  eq_of_getWord_eq (copyWords_lt v _ (fun _ => List.mem_range.mp) hx) hv
    fun _ hj => getWord_copyWords_of_mem (List.mem_range.mpr hj) x

/-- A run that performs writes of words of `v` to an operand register, whichever words they are. -/
theorem run_writes {s : State} (hc : s.cfg.wf) {r : RegName} (hr : r.isOperand = true) (v : Nat)
    (js : List Nat) (hjs : ∀ j ∈ js, j < regWords s.cfg) (rest : List HostEvent) :
    Runs js.length
      (s.withPending
        ((js.map fun j => writeAt s.cfg (regOffset s.cfg r + 4 * j) (getWord v j)) ++ rest))
      ((s.setReg r (copyWords v js (s.getReg r))).withPending rest) := by
  induction js generalizing s with
  | nil =>
    rw [copyWords_nil, State.setReg_getReg]
    exact .zero _
  | cons j js ih =>
    obtain ⟨hj, hjs⟩ := List.forall_mem_cons.mp hjs
    have hstep := step_writeAt_register hc r hr hj (getWord v j)
      ((js.map fun j => writeAt s.cfg (regOffset s.cfg r + 4 * j) (getWord v j)) ++ rest)
    have hrun := @ih (s.setReg r (setWord (s.getReg r) j (getWord v j)))
    rw [State.setReg_cfg, State.getReg_setReg_same, State.setReg_setReg, ← copyWords_cons] at hrun
    exact .succ hstep (hrun hc hjs)

/-! ## The script line `rd` (30_encoding.md R98) -/

theorem getWord_succ (x j : Nat) : getWord x (j + 1) = getWord (x / 2 ^ 32) j := by
  rw [getWord, getWord, Nat.div_div_eq_div_mul, ← pow_add, Nat.mul_succ, Nat.add_comm]

/-- The first `n` words of a natural are its low `32 n` bits. -/
theorem wordsValue_map_getWord_range (x n : Nat) :
    wordsValue ((List.range n).map (getWord x)) = x % 2 ^ (32 * n) := by
  induction n generalizing x with
  | zero => simp [wordsValue, Nat.mod_one]
  | succ n ih =>
    have htail : ((List.range n).map Nat.succ).map (getWord x) =
        (List.range n).map (getWord (x / 2 ^ 32)) := by
      rw [List.map_map]
      exact List.map_congr_left fun j _ => getWord_succ x j
    calc wordsValue ((List.range (n + 1)).map (getWord x))
        = (getWord x 0).toNat + 2 ^ 32 * (x / 2 ^ 32 % 2 ^ (32 * n)) := by
          rw [List.range_succ_eq_map, List.map_cons, htail, wordsValue, ih]
      _ = x % (2 ^ 32 * 2 ^ (32 * n)) := by
          rw [getWord_toNat, Nat.mul_zero, pow_zero, Nat.div_one, Nat.mod_mul]
      _ = x % 2 ^ (32 * (n + 1)) := by rw [← pow_add, Nat.mul_succ, Nat.add_comm]

/-- A run that performs reads of words of a register, whichever words they are. -/
theorem run_reads {s : State} (hc : s.cfg.wf) (r : RegName) (js : List Nat)
    (hjs : ∀ j ∈ js, j < regWords s.cfg) (rest : List HostEvent) :
    Runs js.length
      (s.withPending ((js.map fun j => readAt s.cfg (regOffset s.cfg r + 4 * j)) ++ rest))
      ((s.withAnswers (js.map (getWord (s.getReg r)))).withPending rest) := by
  induction js generalizing s with
  | nil =>
    rw [List.map_nil, List.map_nil, State.withAnswers_nil]
    exact .zero _
  | cons j js ih =>
    obtain ⟨hj, hjs⟩ := List.forall_mem_cons.mp hjs
    have hstep := step_readAt_register hc r hj
      ((js.map fun j => readAt s.cfg (regOffset s.cfg r + 4 * j)) ++ rest)
    have hrun := @ih (s.withAnswers [getWord (s.getReg r) j]) hc hjs
    rw [State.withAnswers_cfg, State.getReg_withAnswers, State.withAnswers_withAnswers] at hrun
    exact .succ hstep hrun

/-! ## The statements -/

/-- Settles O3. -/
theorem encodeOfDecode : Obligations.EncodeOfDecode :=
  fun _ _ => encode_of_decode

/-- Settles O4: the illegal words are those that no command encodes to, known by their fields. -/
theorem illegalWordsExactly : Obligations.IllegalWordsExactly := by
  intro v
  rw [exists_decode_error_iff, exists_eq_encode_iff, not_and_or]
  rfl

/-- Settles O5: both decoders find the command that encodes to the word. -/
theorem tableDecoderIsDecode : Obligations.TableDecoderIsDecode := by
  refine ⟨fun v => Option.ext fun i => ?_, ?_⟩
  · rw [decodeByTable_eq_some_iff, ← decode_eq_ok_iff]
    cases decode v <;> simp [Except.toOption]
  · have hdistinct : allCommands.Nodup := by decide
    rw [opcodeTable_eq]
    exact List.pairwise_map.mpr
      (hdistinct.imp fun hij _ hi hj => hij (eq_of_commandRow_match hi hj))

/-- Settles O8: the words listed are all the words that decode. -/
theorem illegalWordReported : Obligations.IllegalWordReported := by
  intro v s hv
  obtain ⟨e, he⟩ := exists_decode_error_iff.mpr (mt mem_map_encode_iff.mpr hv)
  rw [hostEvent_write_cmd, issue_of_decode_error he]

/-- Settles O57: the line writes every word of `v`, and the words make the register. -/
theorem scriptWrStoresRegister : Obligations.ScriptWrStoresRegister := by
  intro s r v rest hc hr hold hv hpending
  have hwidth := (regBytes_eq hc).2
  rw [hwidth] at hold hv
  have hrun := run_writes hc (decide_eq_true hr) v (List.range (regWords s.cfg))
    (fun _ => List.mem_range.mp) rest
  rw [← scriptWr, s.withPending_of_eq hpending, List.length_range, copyWords_range hv hold,
    ← State.setReg_withPending] at hrun
  exact hrun

/-- Settles O58: the line reads every word of the register. -/
theorem scriptRdReturnsRegister : Obligations.ScriptRdReturnsRegister := by
  intro s r rest hc hreg hpending
  rw [(regBytes_eq hc).2] at hreg
  refine ⟨(List.range (regWords s.cfg)).map (getWord (s.getReg r)), ?_, ?_⟩
  · rw [wordsValue_map_getWord_range, Nat.mod_eq_of_lt hreg]
  · have hrun := run_reads hc r (List.range (regWords s.cfg)) (fun _ => List.mem_range.mp) rest
    rw [← scriptRd, s.withPending_of_eq hpending, List.length_range] at hrun
    exact hrun

/-- Settles O1: each word written out is the word of its command. -/
theorem opcodeWordsDecode : Obligations.OpcodeWordsDecode :=
  ⟨decode_encode .montmul, decode_encode .barrett, decode_encode .modinv, decode_encode .wAdd,
    decode_encode .wDbl, decode_encode .wSmul, decode_encode .mAdd, decode_encode .mSmul⟩

/-- Settles O2. -/
theorem decodeOfEncode : Obligations.DecodeOfEncode := by
  refine fun i => ⟨decode_encode i, fun rest => ?_⟩
  rw [encodeBytes, decodeBytes_wordBytes_append, decode_encode]
  rfl

/-- Settles O6. -/
theorem stepRunsDecodedCommand : Obligations.StepRunsDecodedCommand := by
  intro s v rest i hpending hd
  rw [step_event hpending, ← issue_of_decode_ok hd]
  exact hostEvent_write_cmd { s with pending := rest } v

/-- Settles O7: the word handed over is pending first, by O6, and 32 bits hold it. -/
theorem fetchedWordRuns : Obligations.FetchedWordRuns := by
  intro i s
  refine ⟨?_, by rw [decodeTableWord_toNat, decode_encode]; rfl⟩
  have hword : BitVec.ofNat 32 ((encode i).toNat % 2 ^ 32) = encode i := by
    rw [Nat.mod_eq_of_lt (encode i).isLt, BitVec.ofNat_toNat, BitVec.setWidth_eq]
  refine stepRunsDecodedCommand _ (encode i) s.pending i ?_ (decode_encode i)
  rw [State.withFetchWord, placeCommand, hword]
  rfl

end Sys2Proof.Machine

/-! The modular commands and the functions behind them (40_modular.md). A command's outcome is its
rule's; MONTMUL's result is the only residue that times `R` gives the product, and Montgomery's
reduction finds that residue; Barrett's estimate is at most one modulus short. -/

namespace Sys2Proof.Machine

/-! ## From a rule to its command -/

section
variable {i : Instr} {s : State} {x : Except Failure Nat}

/-- A modular command reports what the function behind its rule gives (30_encoding.md R91). -/
theorem exec_of_int_ok (hrule : ruleOf i s = x.map .int) {n : Nat} (hx : x = .ok n) :
    exec i s = .next (s.afterInt (encode i) n) :=
  exec_of_ok (by rw [hrule, hx]; rfl)

theorem exec_of_int_error (hrule : ruleOf i s = x.map .int) {k : Failure} (hx : x = .error k) :
    exec i s = .next (s.afterFailure (encode i) (statusFail k)) :=
  exec_of_error (by rw [hrule, hx]; rfl)

end

/-! ## BARRETT and MODINV -/

theorem barrett_of_pos (x : Nat) {m : Nat} (hm : 0 < m) : barrett x m = .ok (x % m) :=
  if_neg hm.ne'

theorem barrett_zero (x : Nat) : barrett x 0 = .error .invalidModulus := rfl

theorem modinv_of_pos (a : Nat) {m : Nat} (hm : 0 < m) : modinv a m = modInverse a m :=
  if_neg hm.ne'

theorem modinv_zero (a : Nat) : modinv a 0 = .error .invalidModulus := rfl

/-- A residue has at most one inverse below the modulus (40_modular.md R123). -/
theorem eq_of_mul_mod_eq_one {a m x y : Nat} (ha : Nat.gcd a m = 1) (hx : x < m) (hy : y < m)
    (hax : a * x % m = 1 % m) (hay : a * y % m = 1 % m) : y = x := by
  have h : a * y ≡ a * x [MOD m] := hay.trans hax.symm
  exact (Nat.ModEq.cancel_left_of_coprime (by rwa [Nat.gcd_comm]) h).eq_of_lt_of_lt hy hx

/-! ## The inverse functions -/

/-- `inv_mod` inverts every integer whose residue is coprime to the modulus (40_modular.md R128). -/
theorem invMod_of_coprime (d : Int) {m : Nat} (hm : 0 < m) (h : Nat.gcd (modN d m) m = 1) :
    ∃ r, invMod d m = .ok r ∧ r < m ∧ d * r ≡ 1 [ZMOD m] := by
  obtain ⟨r, hr, hlt, hinv⟩ := modInverse_of_coprime hm h
  have hres : (modN d m : Int) * r ≡ 1 [ZMOD m] := by
    exact_mod_cast Int.natCast_modEq_iff.mpr hinv
  exact ⟨r, hr, hlt, ((modN_emod_eq d hm).symm.mul_right _).trans hres⟩

theorem invMod_natCast_of_coprime {d m : Nat} (hm : 0 < m) (h : Nat.Coprime d m) :
    ∃ r, invMod d m = .ok r ∧ r < m ∧ d * r ≡ 1 [MOD m] := by
  obtain ⟨r, hr, hlt, hinv⟩ := invMod_of_coprime d hm (by simpa [modN_natCast] using h)
  exact ⟨r, hr, hlt, Int.natCast_modEq_iff.mp (by exact_mod_cast hinv)⟩

/-! ## MONTMUL -/

theorem coprime_two_pow_of_odd (W : Nat) {N : Nat} (hN : N % 2 = 1) : Nat.Coprime (2 ^ W) N :=
  (Nat.coprime_two_left.mpr (Nat.odd_iff.mpr hN)).pow_left W

theorem montmul_of_even (R a b : Nat) {N : Nat} (hN : N % 2 = 0) :
    montmul R a b N = .error .invalidModulus := by
  simp [montmul, hN]

theorem montmul_of_odd (W a b : Nat) {N : Nat} (hN : N % 2 = 1) :
    ∃ rinv, rinv < N ∧ 2 ^ W % N * rinv % N = 1 % N ∧
      montmul (2 ^ W) a b N = .ok (a * b * rinv % N) := by
  by_cases h1 : N = 1
  · subst h1
    exact ⟨0, one_pos, by simp, by simp [montmul]⟩
  obtain ⟨rinv, hr, hlt, hinv⟩ := invMod_natCast_of_coprime (d := 2 ^ W % N) (m := N) (by omega)
    (by simpa [Nat.Coprime] using coprime_two_pow_of_odd W hN)
  refine ⟨rinv, hlt, hinv, ?_⟩
  rw [montmul, if_neg (by omega), if_neg (by omega), if_neg h1, hr]

/-- MONTMUL undoes one factor `R` (40_modular.md R121). -/
theorem montmul_mul_radix (W a b : Nat) {N : Nat} (hN : N % 2 = 1) :
    ∃ n, n < N ∧ montmul (2 ^ W) a b N = .ok n ∧ n * 2 ^ W ≡ a * b [MOD N] := by
  obtain ⟨rinv, hlt, hinv, hok⟩ := montmul_of_odd W a b hN
  refine ⟨_, Nat.mod_lt _ (by omega), hok, ?_⟩
  have hR : 2 ^ W * rinv ≡ 1 [MOD N] := ((Nat.mod_modEq _ _).mul_right rinv).symm.trans hinv
  calc a * b * rinv % N * 2 ^ W ≡ a * b * rinv * 2 ^ W [MOD N] := (Nat.mod_modEq _ _).mul_right _
    _ = a * b * (2 ^ W * rinv) := by ring
    _ ≡ a * b * 1 [MOD N] := hR.mul_left _
    _ = a * b := mul_one _

theorem modEq_of_mul_radix {W N n u : Nat} (hN : N % 2 = 1)
    (h : n * 2 ^ W ≡ u * 2 ^ W [MOD N]) : n ≡ u [MOD N] :=
  Nat.ModEq.cancel_right_of_coprime (coprime_two_pow_of_odd W hN).symm h

/-! ## Subtracting the modulus while it fits -/

/-- Each pass takes one `m` off, so `passes` of them reach the remainder of anything below
`(passes + 1) * m` (40_modular.md R125). -/
theorem subtractWhile_eq_mod {m : Nat} : ∀ {passes r : Nat}, r < (passes + 1) * m →
    subtractWhile passes r m = r % m
  | 0, r, h => by rw [subtractWhile, Nat.mod_eq_of_lt (by omega)]
  | passes + 1, r, h => by
    unfold subtractWhile
    split
    · next hm =>
      rw [subtractWhile_eq_mod (by rw [Nat.succ_mul] at h; omega), Nat.mod_eq_sub_mod hm]
    · next hm => rw [Nat.mod_eq_of_lt (by omega)]

/-- One conditional subtraction is enough below `2 * m` (40_modular.md R124). -/
theorem conditional_sub_eq_mod {m r : Nat} (h : r < 2 * m) :
    (if m ≤ r then r - m else r) = r % m :=
  subtractWhile_eq_mod (passes := 1) h

/-! ## Montgomery's reduction -/

/-- The multiple of `N` that makes the division by `R` exact (40_modular.md R124). -/
theorem radix_dvd_add_mul {R N N' : Nat} (hN' : N * N' + 1 ≡ 0 [MOD R]) (T : Nat) :
    R ∣ T + T % R * N' % R * N := by
  have hq : T % R * N' % R ≡ T * N' [MOD R] :=
    (Nat.mod_modEq _ _).trans ((Nat.mod_modEq T R).mul_right N')
  refine (Nat.modEq_zero_iff_dvd).mp ?_
  calc T + T % R * N' % R * N ≡ T + T * N' * N [MOD R] := (hq.mul_right N).add_left T
    _ = T * (N * N' + 1) := by ring
    _ ≡ T * 0 [MOD R] := hN'.mul_left T
    _ = 0 := mul_zero T

/-- The `N'` of 40_modular.md R124 is the negated inverse of `N`. -/
theorem mul_modN_neg_add_one {R N ninv : Nat} (hR : 0 < R) (hinv : N * ninv ≡ 1 [MOD R]) :
    N * modN (-(ninv : Int)) R + 1 ≡ 0 [MOD R] := by
  have hinv' : (N * ninv : Int) ≡ 1 [ZMOD R] := by exact_mod_cast Int.natCast_modEq_iff.mpr hinv
  refine Int.natCast_modEq_iff.mp ?_
  push_cast
  calc (N * modN (-(ninv : Int)) R + 1 : Int)
      ≡ N * -(ninv : Int) + 1 [ZMOD R] := ((modN_emod_eq _ hR).mul_left _).add_right 1
    _ = -(N * ninv) + 1 := by ring
    _ ≡ -1 + 1 [ZMOD R] := hinv'.neg.add_right 1
    _ = 0 := by ring

theorem add_mul_div_radix_lt {R N T q : Nat} (hT : T < N * R) (hq : q < R) :
    (T + q * N) / R < 2 * N := by
  refine (Nat.div_lt_iff_lt_mul (by omega)).mpr ?_
  calc T + q * N < N * R + R * N := Nat.add_lt_add_of_lt_of_le hT (Nat.mul_le_mul_right N hq.le)
    _ = 2 * N * R := by ring

/-- Montgomery's reduction undoes one factor `R`, as MONTMUL does (40_modular.md R124). -/
theorem redc_mul_radix {R N a b : Nat} (hcop : Nat.Coprime N R) (hNR : N < R) (ha : a < N)
    (hb : b < N) : ∃ u, u < N ∧ redc R N a b = .ok u ∧ u * R ≡ a * b [MOD N] := by
  have hR : 0 < R := by omega
  obtain ⟨ninv, hok, -, hinv⟩ := invMod_natCast_of_coprime hR hcop
  have hexact := Nat.div_mul_cancel (radix_dvd_add_mul (mul_modN_neg_add_one hR hinv) (a * b))
  have hlt := add_mul_div_radix_lt (Nat.mul_lt_mul'' ha (hb.trans hNR))
    (Nat.mod_lt (a * b % R * modN (-(ninv : Int)) R) hR)
  rw [redc, Nat.mod_eq_of_lt hNR, hok]
  refine ⟨_, Nat.mod_lt _ (by omega), congrArg _ (conditional_sub_eq_mod hlt), ?_⟩
  refine ((Nat.mod_modEq _ N).mul_right R).trans ?_
  rw [hexact]
  exact Nat.add_mul_modulus_modEq_iff.mpr rfl

/-! ## Barrett's reduction -/

/-- The estimate never exceeds the quotient (40_modular.md R125). -/
theorem estimate_mul_le (x m : Nat) {B : Nat} (hB : 0 < B) : x * (B / m) / B * m ≤ x := by
  refine Nat.le_of_mul_le_mul_right ?_ hB
  calc x * (B / m) / B * m * B = x * (B / m) / B * B * m := by ring
    _ ≤ x * (B / m) * m := Nat.mul_le_mul_right m (Nat.div_mul_le_self _ _)
    _ = x * (B / m * m) := Nat.mul_assoc _ _ _
    _ ≤ x * B := Nat.mul_le_mul_left x (Nat.div_mul_le_self B m)

/-- Each of the two divisions loses less than one modulus (40_modular.md R125). -/
theorem lt_estimate_mul_add {B x m : Nat} (hx : x < B) (hm : 0 < m) :
    x < x * (B / m) / B * m + 2 * m := by
  have hq : x * (B / m) < B * (x * (B / m) / B + 1) := Nat.lt_mul_div_succ _ (by omega)
  refine Nat.lt_of_mul_lt_mul_right (a := B) ?_
  calc x * B = x * (B / m) * m + x * (B % m) := by rw [mul_assoc, ← mul_add, Nat.div_add_mod']
    _ < B * (x * (B / m) / B + 1) * m + B * m :=
      Nat.add_lt_add_of_lt_of_le ((Nat.mul_lt_mul_right hm).mpr hq)
        (Nat.mul_le_mul hx.le (Nat.mod_lt B hm).le)
    _ = (x * (B / m) / B * m + 2 * m) * B := by ring

theorem barrettEstimate_eq_mod {B passes x m : Nat} (hx : x < B) (hm : 0 < m) (hp : 1 ≤ passes) :
    barrettEstimate B passes x m = x % m := by
  have hle := estimate_mul_le x m (B := B) (by omega)
  have hlt := lt_estimate_mul_add hx hm
  have h2 : 2 * m ≤ (passes + 1) * m := Nat.mul_le_mul_right m (by omega)
  rw [barrettEstimate, subtractWhile_eq_mod (by omega), Nat.mul_comm,
    Nat.sub_mul_mod (by rwa [Nat.mul_comm])]

/-! ## modpow -/

theorem modpowLoop_lt (base exponent : Nat) {m : Nat} (hm : 0 < m) :
    ∀ (i : Nat) {acc : Nat}, acc < m → modpowLoop base exponent m i acc < m
  | 0, _, h => h
  | i + 1, acc, _ => by
    refine modpowLoop_lt base exponent hm i ?_
    split <;> exact Nat.mod_lt _ hm

theorem modpowLoop_eq (base exponent : Nat) {m : Nat} (hm : 0 < m) :
    modpowLoop base exponent m (bitlen exponent) (1 % m) = base ^ exponent % m := by
  have hstart : 1 % m ≡ base ^ (exponent / 2 ^ bitlen exponent) [MOD m] := by
    rw [Nat.div_eq_of_lt (lt_two_pow_bitlen exponent), pow_zero]
    exact Nat.mod_modEq 1 m
  have hloop := modpowLoop_spec base exponent m _ _ hstart
  rwa [Nat.ModEq, Nat.mod_eq_of_lt (modpowLoop_lt base exponent hm _ (Nat.mod_lt 1 hm))] at hloop

/-! ## What a command reports -/

@[simp] theorem State.afterPoint_point3 (s : State) (v : Word) (P : Point) :
    (s.afterPoint v P).point3 = P := by
  cases P <;> simp [State.afterPoint, State.point3, State.p3inf]

theorem State.afterFailure_rvalid (s : State) (v : Word) (k : Failure) :
    (s.afterFailure v (statusFail k)).rvalid = false := by
  rw [State.rvalid, State.afterFailure_status]
  cases k <;> decide

/-! ## The obligations -/

/-- Settles O19: a power of two is invertible modulo an odd number. -/
theorem montmulComputes : Obligations.MontmulComputes := by
  refine fun s => ⟨fun hodd => ?_, fun heven => ?_⟩
  · obtain ⟨rinv, hlt, hinv, hok⟩ := montmul_of_odd s.cfg.width s.opa s.opb hodd
    exact ⟨rinv, hlt, hinv, exec_of_int_ok rfl hok⟩
  · exact exec_of_int_error rfl (montmul_of_even _ _ _ (by omega))

/-- Settles O20: both sides times `R` agree, and `R` cancels modulo an odd number. -/
theorem montmulKeepsMontgomeryForm : Obligations.MontmulKeepsMontgomeryForm := by
  intro s hodd
  obtain ⟨n, hlt, hok, hn⟩ := montmul_mul_radix s.cfg.width s.opa s.opb hodd
  refine ⟨n, hlt, exec_of_int_ok rfl hok, hn, fun a b ha hb => ?_⟩
  have hform : n ≡ a * b * 2 ^ s.cfg.width [MOD s.mod] := by
    refine modEq_of_mul_radix (W := s.cfg.width) hodd ?_
    calc n * 2 ^ s.cfg.width ≡ s.opa * s.opb [MOD s.mod] := hn
      _ ≡ a * 2 ^ s.cfg.width * (b * 2 ^ s.cfg.width) [MOD s.mod] := Nat.ModEq.mul ha hb
      _ = a * b * 2 ^ s.cfg.width * 2 ^ s.cfg.width := by ring
  exact (Nat.mod_eq_of_lt hlt).symm.trans hform

/-- Settles O21. -/
theorem barrettComputes : Obligations.BarrettComputes :=
  fun _ => ⟨fun hm => exec_of_int_ok rfl (barrett_of_pos _ hm),
    fun hm => exec_of_int_error rfl (hm ▸ barrett_zero _)⟩

/-- Settles O22. -/
theorem modinvComputes : Obligations.ModinvComputes := by
  refine fun s => ⟨fun hm => ?_, fun hm hg => ?_, fun hm hg => ?_⟩
  · exact exec_of_int_error (i := .modinv) rfl (hm ▸ modinv_zero s.opa)
  · exact exec_of_int_error rfl ((modinv_of_pos _ hm).trans (modInverse_of_not_coprime hg))
  · obtain ⟨x, hok, hlt, hinv⟩ := modInverse_of_coprime hm hg
    exact ⟨x, exec_of_int_ok rfl ((modinv_of_pos _ hm).trans hok), hlt, hinv,
      fun y hy hinv' => eq_of_mul_mod_eq_one hg hlt hy hinv hinv'⟩

/-- Settles O23, by the loop's Bézout invariant. -/
theorem extendedGcdIsBezout : Obligations.ExtendedGcdIsBezout := by
  intro a b
  obtain ⟨hg, hb⟩ := egcdLoop_spec a b (2 * bitlen b) a b 1 0 0 1 le_rfl (by ring) (by ring)
  exact ⟨_, _, Prod.ext hg rfl, hb⟩

/-- Settles O24. -/
theorem invModInverts : Obligations.InvModInverts := by
  intro d m hm
  refine ⟨rfl, invMod_of_coprime d hm, modInverse_of_not_coprime, fun hz h1 => ?_, ?_⟩
  · exact modInverse_of_not_coprime (by rw [hz, Nat.gcd_zero_left]; omega)
  · rintro rfl
    obtain ⟨r, hr, hlt, -⟩ := invMod_of_coprime d hm (Nat.gcd_one_right _)
    rw [hr, Nat.lt_one_iff.mp hlt]

/-- Settles O25. -/
theorem modpowComputesPower : Obligations.ModpowComputesPower := by
  refine fun base exponent modulus => ⟨fun h => if_pos h, fun h => ?_⟩
  lift modulus to Nat using h.le
  have hm : 0 < modulus := by omega
  refine ⟨base ^ exponent % modulus, ?_, ?_, by push_cast; rfl⟩
  · simp [modpow, hm.ne', modpowLoop_eq base exponent hm]
  · exact_mod_cast Nat.mod_lt _ hm

/-- Settles O26: each result is below `N`, and times `R` it is the product. -/
theorem redcAgreesWithMontmul : Obligations.RedcAgreesWithMontmul := by
  intro W N a b hodd hN ha hb
  obtain ⟨n, hn, hmul, hnR⟩ := montmul_mul_radix W a b hodd
  obtain ⟨u, hu, hredc, huR⟩ := redc_mul_radix (coprime_two_pow_of_odd W hodd).symm hN ha hb
  have hun : u = n := (modEq_of_mul_radix hodd (huR.trans hnR.symm)).eq_of_lt_of_lt hu hn
  rw [hredc, hmul, hun]

/-- Settles O27: the estimate leaves less than two moduli. -/
theorem barrettEstimateAgreesWithBarrett : Obligations.BarrettEstimateAgreesWithBarrett := by
  intro W x m passes hm hx hp
  rw [barrett_of_pos x hm, barrettEstimate_eq_mod hx hm hp]

/-- Settles O51, by what every rule can answer. -/
theorem resultsAreResidues : Obligations.ResultsAreResidues := by
  intro i s t hexec hvalid
  have hrule := ruleOf_mayAnswer i s
  rcases exec_answers i s with ⟨n, hr, h⟩ | ⟨P, hr, h⟩ | ⟨k, -, h⟩ <;>
    obtain rfl := Host.Outcome.next.inj (hexec.symm.trans h)
  · rw [hr] at hrule
    obtain ⟨hi, hn⟩ := hrule
    exact ⟨fun _ => hn, fun hi' => by simp [hi] at hi'⟩
  · rw [hr] at hrule
    obtain ⟨hi, hP⟩ := hrule
    exact ⟨fun hi' => by simp [hi] at hi', fun _ => by rwa [State.afterPoint_point3]⟩
  · simp [State.afterFailure_rvalid] at hvalid

end Sys2Proof.Machine

/-! The short-Weierstrass curve (41_weierstrass.md), and what both curves share. `double_and_add`
computes multiples wherever `add` is a group law; both laws draw lines, whose points are found once
for the two; over a prime field `w_add` is the addition of Mathlib's affine Weierstrass curves. -/

namespace Sys2Proof.Machine

/-! ## Double and add -/

section
variable {G : Type} [AddMonoid G] {S : Point → Prop} {f : Point → G}
  {add : Point → Point → Except Failure Point}

/-- On the points of `S`, `add` does not fail, stays in `S`, and is the addition of the monoid that
`f` reads the points in. -/
structure IsGroupLaw (S : Point → Prop) (f : Point → G) (add : Point → Point → Except Failure Point) :
    Prop where
  inf : S .inf
  map_inf : f .inf = 0
  add : ∀ Q R, S Q → S R → ∃ T, add Q R = .ok T ∧ S T ∧ f T = f Q + f R

/-- Before bit `i - 1` is handled, the accumulator is the multiple by the bits of `kr` from `i` on. -/
theorem IsGroupLaw.doubleAndAddLoop_eq (h : IsGroupLaw S f add) (kr : Nat) {P : Point} (hP : S P) :
    ∀ (i : Nat) (acc : Point), S acc → f acc = (kr / 2 ^ i) • f P →
      ∃ T, doubleAndAddLoop kr P add i acc = .ok T ∧ S T ∧ f T = kr • f P := by
  intro i
  induction i with
  | zero => intro acc hacc hf; exact ⟨acc, rfl, hacc, by simpa using hf⟩
  | succ i ih =>
    intro acc hacc hf
    obtain ⟨D, hD, hSD, hfD⟩ := h.add acc acc hacc hacc
    have hdbl : f D = (2 * (kr / 2 ^ (i + 1))) • f P := by rw [hfD, hf, two_mul, add_nsmul]
    have hnext := div_two_pow_succ kr i
    simp only [doubleAndAddLoop, hD]
    split
    · next hbit =>
      obtain ⟨T, hT, hST, hfT⟩ := h.add D P hSD hP
      simp only [hT]
      refine ih T hST ?_
      rw [hfT, hdbl, hnext, hbit, Bool.toNat_true, succ_nsmul]
    · next hbit =>
      refine ih D hSD ?_
      rw [hdbl, hnext, Bool.eq_false_of_not_eq_true hbit, Bool.toNat_false, add_zero]

/-- `double_and_add` is the multiple by the reduced scalar (41_weierstrass.md R157). -/
theorem IsGroupLaw.doubleAndAdd_eq (h : IsGroupLaw S f add) (k n : Nat) {P : Point} (hP : S P) :
    ∃ T, doubleAndAdd k P n add = .ok T ∧ S T ∧ f T = (k % n) • f P := by
  refine h.doubleAndAddLoop_eq (k % n) hP _ .inf h.inf ?_
  rw [Nat.div_eq_of_lt (lt_two_pow_bitlen _), zero_nsmul, h.map_inf]

/-- Multiples of a point add up modulo any `n` with `n` times the point `Inf` (41_weierstrass.md
R158), where `f` tells the points of `S` apart. -/
theorem IsGroupLaw.doubleAndAdd_add (h : IsGroupLaw S f add)
    (hinj : ∀ Q R, S Q → S R → f Q = f R → Q = R) {n : Nat} {P : Point} (hP : S P)
    (hn : doubleAndAdd n P (n + 1) add = .ok .inf) (j k : Nat) :
    ∃ Q R T, doubleAndAdd j P n add = .ok Q ∧ doubleAndAdd k P n add = .ok R ∧
      doubleAndAdd (j + k) P n add = .ok T ∧ add Q R = .ok T := by
  have hzero : n • f P = 0 := by
    obtain ⟨T, hT, -, hfT⟩ := h.doubleAndAdd_eq n (n + 1) hP
    obtain rfl := Except.ok.inj (hT.symm.trans hn)
    rw [← h.map_inf, hfT, Nat.mod_eq_of_lt n.lt_succ_self]
  have hmod (m : Nat) : (m % n) • f P = m • f P := (nsmul_eq_mod_nsmul m hzero).symm
  obtain ⟨Q, hQ, hSQ, hfQ⟩ := h.doubleAndAdd_eq j n hP
  obtain ⟨R, hR, hSR, hfR⟩ := h.doubleAndAdd_eq k n hP
  obtain ⟨T, hT, hST, hfT⟩ := h.doubleAndAdd_eq (j + k) n hP
  obtain ⟨T', hT', hST', hfT'⟩ := h.add Q R hSQ hSR
  have hsum : f T' = f T := by rw [hfT', hfQ, hfR, hfT, hmod, hmod, hmod, add_nsmul]
  exact ⟨Q, R, T, hQ, hR, hT, hinj T' T hST' hST hsum ▸ hT'⟩

end

theorem bit_eq_false_of_lt {v i : Nat} (h : v < 2 ^ i) : bit v i = false := by
  simp [bit, Nat.div_eq_of_lt h]

/-- A leading zero of the scalar doubles `Inf` (41_weierstrass.md R157). -/
theorem doubleAndAddLoop_succ_of_lt {add : Point → Point → Except Failure Point}
    (hinf : add .inf .inf = .ok .inf) {kr i : Nat} (h : kr < 2 ^ i) (P : Point) :
    doubleAndAddLoop kr P add (i + 1) .inf = doubleAndAddLoop kr P add i .inf := by
  simp [doubleAndAddLoop, hinf, bit_eq_false_of_lt h]

theorem doubleAndAdd_mod (k : Nat) (P : Point) (n : Nat) (add : Point → Point → Except Failure Point) :
    doubleAndAdd (k % n) P n add = doubleAndAdd k P n add := by
  rw [doubleAndAdd, doubleAndAdd, Nat.mod_mod]

theorem doubleAndAdd_of_mod_eq_zero {k n : Nat} (hk : k % n = 0) (P : Point)
    (add : Point → Point → Except Failure Point) : doubleAndAdd k P n add = .ok .inf := by
  rw [doubleAndAdd, hk, bitlen_zero, doubleAndAddLoop]

section
variable {add : Point → Point → Except Failure Point} (hinf : ∀ Q, add .inf Q = .ok Q) (P : Point)
  {k n : Nat}

include hinf

theorem doubleAndAdd_inf : doubleAndAdd k .inf n add = .ok .inf := by
  have hadd : ∀ Q R, Q = Point.inf → R = .inf → ∃ T, add Q R = .ok T ∧ T = .inf := by
    rintro _ _ rfl rfl
    exact ⟨.inf, hinf _, rfl⟩
  obtain ⟨T, hT, rfl⟩ := doubleAndAddLoop_keeps hadd (k % n) rfl (bitlen (k % n)) .inf rfl
  exact hT

theorem doubleAndAdd_of_mod_eq_one (hk : k % n = 1) : doubleAndAdd k P n add = .ok P := by
  have hlen : bitlen 1 = 1 := by decide
  simp [doubleAndAdd, hk, hlen, doubleAndAddLoop, bit, hinf]

theorem doubleAndAdd_of_mod_eq_two (hk : k % n = 2) : doubleAndAdd k P n add = add P P := by
  have hlen : bitlen 2 = 2 := by decide
  cases hP : add P P <;> simp [doubleAndAdd, hk, hlen, doubleAndAddLoop, bit, hinf, hP]

end

/-! ## Lines -/

theorem modN_congr {u v : Int} {m : Nat} (h : u ≡ v [ZMOD m]) : modN u m = modN v m := by
  rw [modN, h, modN]

theorem gcd_modN (v : Int) {m : Nat} (hm : 0 < m) : Nat.gcd (modN v m) m = Int.gcd v m := by
  rw [← Int.gcd_natCast_natCast, modN_cast v hm, Int.gcd_emod]

theorem inRange_aff {x y p : Nat} : (Point.aff x y).inRange p = true ↔ x < p ∧ y < p :=
  decide_eq_true_iff

theorem linePoint_spec (c : Int) (lam x1 y1 : Nat) {p : Nat} (hp : 0 < p) :
    ∃ x3 y3, linePoint c lam x1 y1 p = .aff x3 y3 ∧ x3 < p ∧ y3 < p ∧ (x3 : Int) ≡ c [ZMOD p] ∧
      (y3 : Int) ≡ lam * ((x1 : Int) - x3) - y1 [ZMOD p] :=
  ⟨_, _, rfl, modN_lt _ hp, modN_lt _ hp, modN_emod_eq c hp, modN_emod_eq _ hp⟩

/-- Both points of a chord name the same line. -/
theorem linePoint_comm (c : Int) {lam x1 y1 x2 y2 p : Nat}
    (h : (lam : Int) * ((x2 : Int) - x1) ≡ (y2 : Int) - y1 [ZMOD p]) :
    linePoint c lam x1 y1 p = linePoint c lam x2 y2 p := by
  refine congrArg _ (modN_congr (Int.modEq_iff_dvd.mpr ?_))
  convert Int.modEq_iff_dvd.mp h.symm using 1
  ring

/-- The quotient by an invertible denominator is unique. -/
theorem eq_of_mul_modEq {num den : Int} {lam lam' p : Nat} (hp : 0 < p)
    (hden : Nat.gcd (modN den p) p = 1) (hlt : lam < p) (hlt' : lam' < p)
    (h : lam * den ≡ num [ZMOD p]) (h' : lam' * den ≡ num [ZMOD p]) : lam = lam' := by
  have hcancel := (h.trans h'.symm).cancel_right_div_gcd (by exact_mod_cast hp)
  rw [gcd_modN den hp, Int.gcd_comm] at hden
  rw [hden, Nat.cast_one, Int.ediv_one] at hcancel
  exact (Int.natCast_modEq_iff.mp hcancel).eq_of_lt_of_lt hlt hlt'

/-- The end of cases 3 and 4 of both group laws (41_weierstrass.md R152, 42_montgomery_curve.md R182):
the line of slope `num / den` through `(x1, y1)`, and on it the point whose x-coordinate `c` computes from
the slope. -/
def lineThrough (num den : Int) (c : Nat → Int) (x1 y1 p : Nat) : Except Failure Point :=
  (slope (modN num p) (modN den p) p).map fun lam => linePoint (c lam) lam x1 y1 p

theorem slope_modN_of_coprime (num : Int) {den : Int} {p : Nat} (hp : 0 < p)
    (h : Nat.gcd (modN den p) p = 1) :
    ∃ lam, slope (modN num p) (modN den p) p = .ok lam ∧ lam < p ∧ lam * den ≡ num [ZMOD p] := by
  obtain ⟨lam, hok, hlt, hlam⟩ := slope_of_coprime (modN num p) hp h
  refine ⟨lam, hok, hlt, ?_⟩
  calc lam * den ≡ lam * modN den p [ZMOD p] := (modN_emod_eq den hp).symm.mul_left _
    _ ≡ modN num p [ZMOD p] := by exact_mod_cast Int.natCast_modEq_iff.mpr hlam
    _ ≡ num [ZMOD p] := modN_emod_eq num hp

theorem lineThrough_of_coprime (num : Int) {den : Int} (c : Nat → Int) (x1 y1 : Nat) {p : Nat}
    (hp : 0 < p) (h : Nat.gcd (modN den p) p = 1) :
    ∃ lam x3 y3 : Nat, lam * den ≡ num [ZMOD p] ∧ x3 < p ∧ y3 < p ∧
      lineThrough num den c x1 y1 p = .ok (.aff x3 y3) ∧ (x3 : Int) ≡ c lam [ZMOD p] ∧
      (y3 : Int) ≡ lam * ((x1 : Int) - x3) - y1 [ZMOD p] := by
  obtain ⟨lam, hok, -, hlam⟩ := slope_modN_of_coprime num hp h
  obtain ⟨x3, y3, hP, hx, hy, hx3, hy3⟩ := linePoint_spec (c lam) lam x1 y1 hp
  exact ⟨lam, x3, y3, hlam, hx, hy, by rw [lineThrough, hok, ← hP]; rfl, hx3, hy3⟩

theorem lineThrough_of_not_coprime (num : Int) {den : Int} (c : Nat → Int) (x1 y1 : Nat) {p : Nat}
    (h : Nat.gcd (modN den p) p ≠ 1) : lineThrough num den c x1 y1 p = .error .notInvertible := by
  rw [lineThrough, slope_of_not_coprime _ h]
  rfl

/-- A line may be drawn from either of two points on it. -/
theorem lineThrough_comm {c c' : Nat → Int} (hc : ∀ lam, c lam = c' lam) (x1 y1 x2 y2 : Nat) {p : Nat}
    (hp : 0 < p) :
    lineThrough ((y2 : Int) - y1) ((x2 : Int) - x1) c x1 y1 p =
      lineThrough ((y1 : Int) - y2) ((x1 : Int) - x2) c' x2 y2 p := by
  obtain rfl : c = c' := funext hc
  have hgcd : Nat.gcd (modN ((x1 : Int) - x2) p) p = Nat.gcd (modN ((x2 : Int) - x1) p) p := by
    rw [gcd_modN _ hp, gcd_modN _ hp, ← Int.neg_gcd, neg_sub]
  by_cases h : Nat.gcd (modN ((x2 : Int) - x1) p) p = 1
  · obtain ⟨lam, hok, hlt, hlam⟩ := slope_modN_of_coprime ((y2 : Int) - y1) hp h
    obtain ⟨lam', hok', hlt', hlam'⟩ := slope_modN_of_coprime ((y1 : Int) - y2) hp (hgcd.trans h)
    obtain rfl := eq_of_mul_modEq hp h hlt hlt' hlam (by simpa only [← mul_neg, neg_sub] using hlam'.neg)
    rw [lineThrough, lineThrough, hok, hok']
    exact congrArg _ (linePoint_comm _ hlam)
  · rw [lineThrough_of_not_coprime _ _ _ _ h, lineThrough_of_not_coprime _ _ _ _ (hgcd ▸ h)]

/-! ## The rows of the case tables (41_weierstrass.md R159, 42_montgomery_curve.md R185) -/

section
variable {x y1 y2 p : Nat}

theorem modN_two_mul (y p : Nat) : modN (2 * (y : Int)) p = 2 * y % p := by
  exact_mod_cast modN_natCast (2 * y) p

theorem ne_modN_neg (hp : 0 < p) (hy : y1 < p) (h : (y1 + y2) % p ≠ 0) :
    y1 ≠ modN (-(y2 : Int)) p :=
  (eq_modN_neg_iff hy hp).not.mpr h

theorem wAdd_of_add_mod_eq_zero (a : Nat) (hp : 0 < p) (hy : y1 < p) (h : (y1 + y2) % p = 0) :
    wAdd (.aff x y1) (.aff x y2) a p = .ok .inf :=
  wAdd_neg ((eq_modN_neg_iff hy hp).mpr h)

end

section
variable {x y a p : Nat}

theorem wAdd_double_eq (h : y ≠ modN (-(y : Int)) p) :
    wAdd (.aff x y) (.aff x y) a p =
      lineThrough (3 * x * x + a) (2 * y) (fun lam => lam * lam - x - x) x y p := by
  rw [wAdd_double h, lineThrough]
  split <;> next hs => rw [hs]; rfl

theorem wAdd_double_of_coprime (hp : 0 < p) (hy : y < p) (h0 : 2 * y % p ≠ 0)
    (hg : Nat.gcd (2 * y % p) p = 1) :
    ∃ lam x3 y3 : Nat, lam * (2 * y) ≡ 3 * x * x + a [MOD p] ∧ x3 < p ∧ y3 < p ∧
      wAdd (.aff x y) (.aff x y) a p = .ok (.aff x3 y3) ∧
      (x3 : Int) ≡ lam * lam - x - x [ZMOD p] ∧ (y3 : Int) ≡ lam * ((x : Int) - x3) - y [ZMOD p] := by
  rw [wAdd_double_eq (ne_modN_neg hp hy (by rwa [← two_mul]))]
  obtain ⟨lam, x3, y3, hlam, h⟩ := lineThrough_of_coprime (3 * x * x + a) (fun lam => lam * lam - x - x)
    x y hp (by rwa [modN_two_mul])
  exact ⟨lam, x3, y3, Int.natCast_modEq_iff.mp (by exact_mod_cast hlam), h⟩

theorem wAdd_double_of_not_coprime (hp : 0 < p) (hy : y < p) (h0 : 2 * y % p ≠ 0)
    (hg : Nat.gcd (2 * y % p) p ≠ 1) : wAdd (.aff x y) (.aff x y) a p = .error .notInvertible := by
  rw [wAdd_double_eq (ne_modN_neg hp hy (by rwa [← two_mul]))]
  exact lineThrough_of_not_coprime _ _ _ _ (by rwa [modN_two_mul])

end

theorem wAdd_chord_eq {x1 y1 x2 y2 a p : Nat} (h : x1 ≠ x2 ∨ y1 ≠ modN (-(y2 : Int)) p ∧ y1 ≠ y2) :
    wAdd (.aff x1 y1) (.aff x2 y2) a p =
      lineThrough (y2 - y1) (x2 - x1) (fun lam => lam * lam - x1 - x2) x1 y1 p := by
  rw [wAdd_chord h, lineThrough]
  split <;> next hs => rw [hs]; rfl

theorem mAdd_chord_eq {x1 y1 x2 y2 A B p : Nat} (h : x1 ≠ x2 ∨ y1 ≠ modN (-(y2 : Int)) p ∧ y1 ≠ y2) :
    mAdd (.aff x1 y1) (.aff x2 y2) A B p =
      lineThrough (y2 - y1) (x2 - x1) (fun lam => B * lam * lam - A - x1 - x2) x1 y1 p := by
  rw [mAdd_chord h, lineThrough]
  split <;> next hs => rw [hs]; rfl

/-- Two points with the same x-coordinate have no chord. -/
theorem gcd_modN_sub_self (x : Nat) {p : Nat} (hp : p ≠ 1) : Nat.gcd (modN ((x : Int) - x) p) p ≠ 1 := by
  rwa [sub_self, show modN 0 p = 0 by simp [modN], Nat.gcd_zero_left]

/-! ## Both group laws commute -/

theorem eq_modN_neg_comm {y1 y2 p : Nat} (hp : 0 < p) (h1 : y1 < p) (h2 : y2 < p) :
    y1 = modN (-(y2 : Int)) p ↔ y2 = modN (-(y1 : Int)) p := by
  rw [eq_modN_neg_iff h1 hp, eq_modN_neg_iff h2 hp, add_comm]

/-- What the two laws share and what makes them commute: `Inf` is neutral, opposite points give `Inf`,
and two different points have a chord, which is the same from both ends. -/
theorem comm_of_chord {add : Point → Point → Except Failure Point} {p : Nat}
    (hl : ∀ Q, add .inf Q = .ok Q) (hr : ∀ Q, add Q .inf = .ok Q)
    (hneg : ∀ {x y1 y2 : Nat}, y1 = modN (-(y2 : Int)) p → add (.aff x y1) (.aff x y2) = .ok .inf)
    {c : Nat → Nat → Nat → Int} (hc : ∀ x1 x2 lam, c x1 x2 lam = c x2 x1 lam)
    (hchord : ∀ {x1 y1 x2 y2 : Nat}, x1 ≠ x2 ∨ y1 ≠ modN (-(y2 : Int)) p ∧ y1 ≠ y2 →
      add (.aff x1 y1) (.aff x2 y2) = lineThrough (y2 - y1) (x2 - x1) (c x1 x2) x1 y1 p)
    (hp : 0 < p) {P Q : Point} (hP : P.inRange p = true) (hQ : Q.inRange p = true) :
    add P Q = add Q P := by
  match P, Q with
  | .inf, Q => rw [hl, hr]
  | .aff _ _, .inf => rw [hl, hr]
  | .aff x1 y1, .aff x2 y2 =>
    obtain ⟨-, hy1⟩ := inRange_aff.mp hP
    obtain ⟨-, hy2⟩ := inRange_aff.mp hQ
    have hcomm := eq_modN_neg_comm hp hy1 hy2
    by_cases hxy : x1 = x2 ∧ y1 = y2
    · rw [hxy.1, hxy.2]
    by_cases hn : x1 = x2 ∧ y1 = modN (-(y2 : Int)) p
    · obtain ⟨rfl, hn⟩ := hn
      rw [hneg hn, hneg (hcomm.mp hn)]
    · have hn' : ¬(x2 = x1 ∧ y2 = modN (-(y1 : Int)) p) := by rwa [← hcomm, eq_comm (a := x2)]
      rw [hchord (by tauto), hchord (by tauto)]
      exact lineThrough_comm (hc x1 x2) x1 y1 x2 y2 hp

/-! ## The curve commands -/

section
variable {i : Instr} {s : State} {x : Except Failure Point}

/-- A curve command reports what the point function behind its rule gives (30_encoding.md R91). -/
theorem exec_of_point_ok (hrule : ruleOf i s = x.map .point) {P : Point} (hx : x = .ok P) :
    exec i s = .next (s.afterPoint (encode i) P) := by
  rw [exec_of_ok (by rw [hrule, hx]; rfl), beginCommand_succeed_point]

theorem exec_of_point_error (hrule : ruleOf i s = x.map .point) {k : Failure} (hx : x = .error k) :
    exec i s = .next (s.afterFailure (encode i) (statusFail k)) :=
  exec_of_error (by rw [hrule, hx]; rfl)

/-- The point functions fail with NotInvertible only (60_exceptions.md R202). -/
theorem exec_of_inRangeOrNotInvertible (hrule : ruleOf i s = x.map .point) {p : Nat}
    (hx : InRangeOrNotInvertible p x) :
    (∀ Q, x = .ok Q → exec i s = .next (s.afterPoint (encode i) Q)) ∧
    ∀ e, x = .error e → exec i s = .next (s.afterFailure (encode i) 0x02#32) := by
  refine ⟨fun Q => exec_of_point_ok hrule, ?_⟩
  rintro e rfl
  obtain ⟨_, h, -⟩ | ⟨_, h, rfl⟩ := hx
  · cases h
  · exact exec_of_point_error hrule h

theorem exec_of_mod_eq_zero (i : Instr) (h : s.mod = 0) :
    exec i s = .next (s.afterFailure (encode i) 0x01#32) :=
  exec_of_error (ruleOf_of_mod_eq_zero i h)

theorem exec_of_badOperand (h : ruleOf i s = .error .badOperand) :
    exec i s = .next (s.afterFailure (encode i) 0x05#32) :=
  exec_of_error h

/-- Commands with the same rule outcome report the same (30_encoding.md R91). -/
theorem exec_report_eq {i j : Instr} {s s' : State} (h : ruleOf i s = ruleOf j s') :
    ∃ t u, exec i s = .next t ∧ exec j s' = .next u ∧ t.status = u.status ∧ t.rtag = u.rtag ∧
      t.res = u.res ∧ t.p3x = u.p3x ∧ t.p3y = u.p3y := by
  rcases hr : ruleOf i s with k | n | _ | ⟨x, y⟩
  · exact ⟨_, _, exec_of_error hr, exec_of_error (h ▸ hr), rfl, rfl, rfl, rfl, rfl⟩
  all_goals exact ⟨_, _, exec_of_ok hr, exec_of_ok (h ▸ hr), rfl, rfl, rfl, rfl, rfl⟩

end

theorem State.point3_congr {t u : State} (htag : t.rtag = u.rtag) (hx : t.p3x = u.p3x)
    (hy : t.p3y = u.p3y) : t.point3 = u.point3 := by
  rw [State.point3, State.point3, State.p3inf, State.p3inf, htag, hx, hy]

theorem State.point1_of_p1inf {s : State} (h : s.p1inf = true) : s.point1 = .inf := by
  simp [State.point1, h]

theorem State.point1_of_not_p1inf {s : State} (h : s.p1inf = false) : s.point1 = .aff s.p1x s.p1y := by
  simp [State.point1, h]

/-! The three rules on operands in range, and out of it. -/

section
variable {s : State} (hp : 0 < s.mod)
include hp

theorem ruleWAdd_of_inRange (h1 : s.point1.inRange s.mod = true) (h2 : s.point2.inRange s.mod = true) :
    ruleOf .wAdd s = (wAdd s.point1 s.point2 s.ca s.mod).map .point := by
  simp [ruleOf, ruleWAdd, hp.ne', (checkPoint_ok_iff _ _).mpr h1, (checkPoint_ok_iff _ _).mpr h2]

theorem ruleWAdd_of_not_inRange
    (h : s.point1.inRange s.mod = false ∨ s.point2.inRange s.mod = false) :
    ruleOf .wAdd s = .error .badOperand := by
  by_cases h1 : s.point1.inRange s.mod
  · simp [ruleOf, ruleWAdd, hp.ne', (checkPoint_ok_iff _ _).mpr h1,
      checkPoint_of_not_inRange (by simpa [h1] using h : ¬ s.point2.inRange s.mod)]
  · simp [ruleOf, ruleWAdd, hp.ne', checkPoint_of_not_inRange h1]

theorem ruleWDbl_of_inRange (h1 : s.point1.inRange s.mod = true) :
    ruleOf .wDbl s = (wAdd s.point1 s.point1 s.ca s.mod).map .point := by
  simp [ruleOf, ruleWDbl, hp.ne', (checkPoint_ok_iff _ _).mpr h1]

theorem ruleWDbl_of_not_inRange (h1 : ¬ s.point1.inRange s.mod) :
    ruleOf .wDbl s = .error .badOperand := by
  simp [ruleOf, ruleWDbl, hp.ne', checkPoint_of_not_inRange h1]

theorem ruleWSmul_of_inRange (hn : 0 < s.ord) (h1 : s.point1.inRange s.mod = true) :
    ruleOf .wSmul s =
      (doubleAndAdd s.k s.point1 s.ord fun Q1 Q2 => wAdd Q1 Q2 s.ca s.mod).map .point := by
  simp [ruleOf, ruleWSmul, hp.ne', hn.ne', (checkPoint_ok_iff _ _).mpr h1]

theorem ruleWSmul_of_not_inRange (hn : 0 < s.ord) (h1 : ¬ s.point1.inRange s.mod) :
    ruleOf .wSmul s = .error .badOperand := by
  simp [ruleOf, ruleWSmul, hp.ne', hn.ne', checkPoint_of_not_inRange h1]

end

theorem ruleWSmul_of_ord_eq_zero {s : State} (h : s.ord = 0) :
    ruleOf .wSmul s = .error .invalidModulus := by
  simp [ruleOf, ruleWSmul, h]

/-- W_DBL is W_ADD of a point with itself, failures included (41_weierstrass.md R154). -/
theorem ruleWDbl_eq_ruleWAdd {s t : State} (hmod : t.mod = s.mod) (hca : t.ca = s.ca)
    (h1 : t.point1 = s.point1) (h2 : t.point2 = s.point1) : ruleOf .wDbl s = ruleOf .wAdd t := by
  simp only [ruleOf, ruleWDbl, ruleWAdd, hmod, hca, h1, h2]
  split
  · rfl
  split
  · rfl
  · rfl

/-- The value of `PTAG` that gives both operand points the tag `b` (10_state.md R30). -/
theorem getLsbD_bothTags (b : Bool) :
    (if b then 0x3#32 else 0x0#32).getLsbD 0 = b ∧ (if b then 0x3#32 else 0x0#32).getLsbD 1 = b := by
  cases b <;> decide

/-! ## Over a prime field `w_add` is the addition of Mathlib's Weierstrass curves -/

/-- The curve `y² = x³ + a·x + b` over the integers modulo `p` (41_weierstrass.md R150, R151). -/
def wCurve (a b p : Nat) : WeierstrassCurve.Affine (ZMod p) where
  a₁ := 0
  a₂ := 0
  a₃ := 0
  a₄ := a
  a₆ := b

theorem natCast_modN (v : Int) {p : Nat} (hp : 0 < p) : (modN v p : ZMod p) = v := by
  exact_mod_cast (ZMod.intCast_eq_intCast_iff ..).mpr (modN_emod_eq v hp)

theorem natCast_inj_of_lt {u v p : Nat} (hu : u < p) (hv : v < p) : (u : ZMod p) = v ↔ u = v := by
  rw [ZMod.natCast_eq_natCast_iff, Nat.ModEq, Nat.mod_eq_of_lt hu, Nat.mod_eq_of_lt hv]

theorem wIsOnCurve_aff {x y a b p : Nat} (hp : 0 < p) :
    wIsOnCurve (.aff x y) a b p = true ↔ (wCurve a b p).Equation x y := by
  have hzero : modN ((y : Int) * y - (x * x * x + a * x + b)) p = 0 ↔
      (y : ZMod p) * y - (x * x * x + a * x + b) = 0 := by
    have hcast := natCast_modN ((y : Int) * y - (x * x * x + a * x + b)) hp
    push_cast at hcast
    rw [← hcast, ← natCast_inj_of_lt (modN_lt _ hp) hp, Nat.cast_zero]
  rw [wIsOnCurve, beq_iff_eq, hzero, WeierstrassCurve.Affine.equation_iff, sub_eq_zero, wCurve]
  ring_nf

/-- A point of the curve: in range and on it (41_weierstrass.md R151, R156). -/
def OnWCurve (a b p : Nat) (P : Point) : Prop := P.inRange p = true ∧ wIsOnCurve P a b p = true

theorem onWCurve_inf (a b p : Nat) : OnWCurve a b p .inf := ⟨rfl, rfl⟩

section
variable {a b p : Nat} [Fact p.Prime]

/-- A line whose denominator does not vanish, in the field. -/
theorem lineThrough_of_ne_zero (num : Int) {den : Int} (c : Nat → Int) (x1 y1 : Nat)
    (hden : (den : ZMod p) ≠ 0) :
    ∃ lam x3 y3 : Nat, lineThrough num den c x1 y1 p = .ok (.aff x3 y3) ∧ x3 < p ∧ y3 < p ∧
      (lam : ZMod p) = num / den ∧ (x3 : ZMod p) = c lam ∧ (y3 : ZMod p) = lam * (x1 - x3) - y1 := by
  have hp : 0 < p := (Fact.out : p.Prime).pos
  have hg : Nat.gcd (modN den p) p = 1 := by
    rw [← natCast_modN den hp] at hden
    exact (ZMod.isUnit_iff_coprime _ p).mp hden.isUnit
  obtain ⟨lam, x3, y3, hlam, hx, hy, hok, hx3, hy3⟩ := lineThrough_of_coprime num c x1 y1 hp hg
  have hlam' := (ZMod.intCast_eq_intCast_iff ..).mpr hlam
  have hx3' := (ZMod.intCast_eq_intCast_iff ..).mpr hx3
  have hy3' := (ZMod.intCast_eq_intCast_iff ..).mpr hy3
  push_cast at hlam' hx3' hy3'
  exact ⟨lam, x3, y3, hok, hx, hy, eq_div_of_mul_eq hden hlam', hx3', hy3'⟩

theorem onWCurve_aff {x y : Nat} :
    OnWCurve a b p (.aff x y) ↔ x < p ∧ y < p ∧ (wCurve a b p).Equation x y := by
  rw [OnWCurve, inRange_aff, wIsOnCurve_aff (Fact.out : p.Prime).pos, and_assoc]

@[simp] theorem wCurve_negY (x y : ZMod p) : (wCurve a b p).negY x y = -y := by
  simp [WeierstrassCurve.Affine.negY, wCurve]

theorem wCurve_addX (x1 x2 lam : ZMod p) : (wCurve a b p).addX x1 x2 lam = lam * lam - x1 - x2 := by
  simp only [WeierstrassCurve.Affine.addX, wCurve]
  ring

theorem wCurve_addY (x1 x2 y1 lam : ZMod p) :
    (wCurve a b p).addY x1 x2 y1 lam = lam * (x1 - (wCurve a b p).addX x1 x2 lam) - y1 := by
  simp only [WeierstrassCurve.Affine.addY, WeierstrassCurve.Affine.negAddY, wCurve_negY]
  ring

theorem wCurve_slope_double {x y : ZMod p} (h : y ≠ -y) :
    (wCurve a b p).slope x x y y = (3 * x * x + a) / (2 * y) := by
  rw [WeierstrassCurve.Affine.slope_of_Y_ne rfl (by rwa [wCurve_negY]), wCurve_negY]
  simp only [wCurve]
  ring_nf

theorem wCurve_slope_chord {x1 x2 y1 y2 : ZMod p} (h : x1 ≠ x2) :
    (wCurve a b p).slope x1 x2 y1 y2 = (y2 - y1) / (x2 - x1) := by
  rw [WeierstrassCurve.Affine.slope_of_X_ne h, ← neg_div_neg_eq, neg_sub, neg_sub]

/-- The line with the slope of the curve ends in the point of the curve's addition formulas. -/
theorem lineThrough_wCurve {num den : Int} {x1 y1 x2 : Nat} (y2 : Nat) (hden : (den : ZMod p) ≠ 0)
    (hslope : (num : ZMod p) / den = (wCurve a b p).slope x1 x2 y1 y2) :
    ∃ x3 y3 : Nat, lineThrough num den (fun lam => lam * lam - x1 - x2) x1 y1 p = .ok (.aff x3 y3) ∧
      x3 < p ∧ y3 < p ∧
      (x3 : ZMod p) = (wCurve a b p).addX x1 x2 ((wCurve a b p).slope x1 x2 y1 y2) ∧
      (y3 : ZMod p) = (wCurve a b p).addY x1 x2 y1 ((wCurve a b p).slope x1 x2 y1 y2) := by
  obtain ⟨lam, x3, y3, hok, hx3, hy3, hlam, hx, hy⟩ :=
    lineThrough_of_ne_zero num (fun lam => lam * lam - x1 - x2) x1 y1 hden
  push_cast at hx
  rw [← hslope, ← hlam, wCurve_addY, wCurve_addX, ← hx]
  exact ⟨x3, y3, hok, hx3, hy3, rfl, hy⟩

theorem ne_modN_neg_of_natCast_ne {y1 y2 : Nat} (hp : 0 < p) (h : (y1 : ZMod p) ≠ -y2) :
    y1 ≠ modN (-(y2 : Int)) p := by
  rintro rfl
  exact h (by exact_mod_cast natCast_modN (-(y2 : Int)) hp)

section
variable {x1 y1 x2 y2 : Nat} (h1 : OnWCurve a b p (.aff x1 y1)) (h2 : OnWCurve a b p (.aff x2 y2))
include h1 h2

/-- Case 2 of `w_add` is the case of two points whose sum is zero. -/
theorem wAdd_of_eq_negY
    (hxy : (x1 : ZMod p) = x2 ∧ (y1 : ZMod p) = (wCurve a b p).negY x2 y2) :
    wAdd (.aff x1 y1) (.aff x2 y2) a p = .ok .inf := by
  obtain ⟨hx1, hy1, -⟩ := onWCurve_aff.mp h1
  obtain ⟨hx2, -, -⟩ := onWCurve_aff.mp h2
  obtain ⟨hx, hy⟩ := hxy
  obtain rfl := (natCast_inj_of_lt hx1 hx2).mp hx
  refine wAdd_of_add_mod_eq_zero a (by omega) hy1 ?_
  have hsum : ((y1 + y2 : Nat) : ZMod p) = 0 := by rw [Nat.cast_add, hy, wCurve_negY, neg_add_cancel]
  exact Nat.mod_eq_zero_of_dvd ((ZMod.natCast_eq_zero_iff _ _).mp hsum)

/-- Cases 3 and 4 of `w_add` are the addition formulas of the curve. -/
theorem wAdd_of_ne_negY
    (hxy : ¬((x1 : ZMod p) = x2 ∧ (y1 : ZMod p) = (wCurve a b p).negY x2 y2)) :
    ∃ x3 y3 : Nat, wAdd (.aff x1 y1) (.aff x2 y2) a p = .ok (.aff x3 y3) ∧ x3 < p ∧ y3 < p ∧
      (x3 : ZMod p) = (wCurve a b p).addX x1 x2 ((wCurve a b p).slope x1 x2 y1 y2) ∧
      (y3 : ZMod p) = (wCurve a b p).addY x1 x2 y1 ((wCurve a b p).slope x1 x2 y1 y2) := by
  obtain ⟨hx1, hy1, he1⟩ := onWCurve_aff.mp h1
  obtain ⟨hx2, hy2, he2⟩ := onWCurve_aff.mp h2
  by_cases hx : (x1 : ZMod p) = x2
  · have hneg : (y1 : ZMod p) ≠ (wCurve a b p).negY x2 y2 := fun h => hxy ⟨hx, h⟩
    have hy := WeierstrassCurve.Affine.Y_eq_of_Y_ne he1 he2 hx hneg
    obtain rfl := (natCast_inj_of_lt hx1 hx2).mp hx
    obtain rfl := (natCast_inj_of_lt hy1 hy2).mp hy
    rw [wCurve_negY] at hneg
    rw [wAdd_double_eq (ne_modN_neg_of_natCast_ne (by omega) hneg)]
    refine lineThrough_wCurve y1 ?_ ?_ <;> push_cast
    · rwa [two_mul, ne_eq, add_eq_zero_iff_eq_neg]
    · exact (wCurve_slope_double hneg).symm
  · rw [wAdd_chord_eq (.inl fun h => hx (congrArg _ h))]
    refine lineThrough_wCurve y2 ?_ ?_ <;> push_cast
    · exact sub_ne_zero.mpr (Ne.symm hx)
    · exact (wCurve_slope_chord hx).symm

end

/-- Points of the curve, singular or not, add up to points of the curve (41_weierstrass.md R159). -/
theorem wAdd_onWCurve {P Q : Point} (hP : OnWCurve a b p P) (hQ : OnWCurve a b p Q) :
    ∃ R, wAdd P Q a p = .ok R ∧ OnWCurve a b p R := by
  match P, Q with
  | .inf, Q => exact ⟨Q, wAdd_inf_left Q a p, hQ⟩
  | .aff x y, .inf => exact ⟨_, wAdd_inf_right _ a p, hP⟩
  | .aff x1 y1, .aff x2 y2 =>
    by_cases hxy : (x1 : ZMod p) = x2 ∧ (y1 : ZMod p) = (wCurve a b p).negY x2 y2
    · exact ⟨.inf, wAdd_of_eq_negY hP hQ hxy, onWCurve_inf a b p⟩
    · obtain ⟨-, -, he1⟩ := onWCurve_aff.mp hP
      obtain ⟨-, -, he2⟩ := onWCurve_aff.mp hQ
      obtain ⟨x3, y3, hok, hx3, hy3, hx, hy⟩ := wAdd_of_ne_negY hP hQ hxy
      refine ⟨.aff x3 y3, hok, onWCurve_aff.mpr ⟨hx3, hy3, ?_⟩⟩
      rw [hx, hy]
      exact WeierstrassCurve.Affine.equation_add he1 he2 hxy

/-! ### The group of a non-singular curve -/

open Classical in
/-- A point of the curve in Mathlib's group; anything else is sent to zero. -/
noncomputable def wPoint (a b p : Nat) [Fact p.Prime] : Point → (wCurve a b p).Point
  | .inf => 0
  | .aff x y => if h : (wCurve a b p).Nonsingular x y then .some _ _ h else 0

theorem wPoint_aff {x y : Nat} (h : (wCurve a b p).Nonsingular x y) :
    wPoint a b p (.aff x y) = .some _ _ h := dif_pos h

theorem wCurve_Δ : (wCurve a b p).Δ = -(16 * (4 * a ^ 3 + 27 * b ^ 2) : Nat) := by
  simp only [WeierstrassCurve.Δ, WeierstrassCurve.b₂, WeierstrassCurve.b₄, WeierstrassCurve.b₆,
    WeierstrassCurve.b₈, wCurve]
  push_cast
  ring

section
variable (hΔ : (wCurve a b p).Δ ≠ 0)
include hΔ

theorem OnWCurve.nonsingular {x y : Nat} (h : OnWCurve a b p (.aff x y)) :
    (wCurve a b p).Nonsingular x y := by
  obtain ⟨-, -, he⟩ := onWCurve_aff.mp h
  exact ((wCurve a b p).equation_iff_nonsingular_of_Δ_ne_zero hΔ).mp he

theorem wPoint_injective {P Q : Point} (hP : OnWCurve a b p P) (hQ : OnWCurve a b p Q)
    (h : wPoint a b p P = wPoint a b p Q) : P = Q := by
  match P, Q with
  | .inf, .inf => rfl
  | .inf, .aff x y =>
    rw [wPoint_aff (hQ.nonsingular hΔ)] at h
    exact absurd h.symm (WeierstrassCurve.Affine.Point.some_ne_zero _)
  | .aff x y, .inf =>
    rw [wPoint_aff (hP.nonsingular hΔ)] at h
    exact absurd h (WeierstrassCurve.Affine.Point.some_ne_zero _)
  | .aff x1 y1, .aff x2 y2 =>
    rw [wPoint_aff (hP.nonsingular hΔ), wPoint_aff (hQ.nonsingular hΔ)] at h
    obtain ⟨hx1, hy1, -⟩ := onWCurve_aff.mp hP
    obtain ⟨hx2, hy2, -⟩ := onWCurve_aff.mp hQ
    injection h with hx hy
    rw [(natCast_inj_of_lt hx1 hx2).mp hx, (natCast_inj_of_lt hy1 hy2).mp hy]

theorem wAdd_isGroupLaw :
    IsGroupLaw (OnWCurve a b p) (wPoint a b p) (fun Q1 Q2 => wAdd Q1 Q2 a p) where
  inf := onWCurve_inf a b p
  map_inf := rfl
  add P Q hP hQ := by
    obtain ⟨R, hok, hR⟩ := wAdd_onWCurve hP hQ
    refine ⟨R, hok, hR, ?_⟩
    match P, Q with
    | .inf, Q =>
      obtain rfl := Except.ok.inj (hok.symm.trans (wAdd_inf_left Q a p))
      exact (zero_add _).symm
    | .aff x y, .inf =>
      obtain rfl := Except.ok.inj (hok.symm.trans (wAdd_inf_right _ a p))
      exact (add_zero _).symm
    | .aff x1 y1, .aff x2 y2 =>
      rw [wPoint_aff (hP.nonsingular hΔ), wPoint_aff (hQ.nonsingular hΔ)]
      by_cases hxy : (x1 : ZMod p) = x2 ∧ (y1 : ZMod p) = (wCurve a b p).negY x2 y2
      · obtain rfl := Except.ok.inj (hok.symm.trans (wAdd_of_eq_negY hP hQ hxy))
        exact (WeierstrassCurve.Affine.Point.add_of_Y_eq hxy.1 hxy.2).symm
      · obtain ⟨x3, y3, hok', -, -, hx, hy⟩ := wAdd_of_ne_negY hP hQ hxy
        obtain rfl := Except.ok.inj (hok.symm.trans hok')
        rw [wPoint_aff (hR.nonsingular hΔ), WeierstrassCurve.Affine.Point.add_some hxy]
        simp only [hx, hy]

end

end

/-! ## The obligations -/

/-- Settles O45: the premises are those of `IsGroupLaw`. -/
theorem doubleAndAddIsMultiple : Obligations.DoubleAndAddIsMultiple :=
  fun _ _ _ _ _ k n _ _ hinf hzero hP hadd => IsGroupLaw.doubleAndAdd_eq ⟨hinf, hzero, hadd⟩ k n hP

/-- Settles O46, by induction on the number of leading zeros. -/
theorem doubleAndAddLeadingZeros : Obligations.DoubleAndAddLeadingZeros := by
  intro kr w P add hinf hw
  induction w, (bitlen_le_iff kr w).mpr hw using Nat.le_induction with
  | base => rfl
  | succ w hle ih =>
    have hlt := (bitlen_le_iff kr w).mp hle
    rw [doubleAndAddLoop_succ_of_lt hinf hlt, ih hlt]

/-- Settles O28: case 2 is a sum of y-coordinates that vanishes modulo `p`, case 3 the tangent, case 4
the chord, which two points with the same x-coordinate do not have. -/
theorem weierstrassAddCases : Obligations.WeierstrassAddCases := by
  refine fun a p hp => ⟨fun Q => wAdd_inf_left Q a p, fun P => wAdd_inf_right P a p, ?_⟩
  intro x1 y1 x2 y2 hx1 hy1 hx2 hy2
  refine ⟨?_, ?_, ?_, fun hx => ?_⟩
  · rintro rfl h
    exact wAdd_of_add_mod_eq_zero a hp hy1 h
  · rintro rfl rfl h0
    exact ⟨wAdd_double_of_not_coprime hp hy1 h0, wAdd_double_of_coprime hp hy1 h0⟩
  · rintro rfl hy h0
    rw [wAdd_chord_eq (.inr ⟨ne_modN_neg hp hy1 h0, hy⟩)]
    exact lineThrough_of_not_coprime _ _ _ _ (gcd_modN_sub_self x1 (by omega))
  · rw [wAdd_chord_eq (.inl hx)]
    exact ⟨lineThrough_of_not_coprime _ _ _ _, lineThrough_of_coprime _ _ _ _ hp⟩

/-- Settles O44: a chord is the same from both ends. -/
theorem pointAdditionCommutes : Obligations.PointAdditionCommutes := by
  refine fun p P Q hp hP hQ => ⟨fun a => ?_, fun A B => ?_⟩
  · exact comm_of_chord (add := fun P Q => wAdd P Q a p) (c := fun x1 x2 lam => lam * lam - x1 - x2)
      (by simp) (by simp) wAdd_neg (fun _ _ _ => by ring) wAdd_chord_eq hp hP hQ
  · exact comm_of_chord (add := fun P Q => mAdd P Q A B p)
      (c := fun x1 x2 lam => B * lam * lam - A - x1 - x2)
      (by simp) (by simp) mAdd_neg (fun _ _ _ => by ring) mAdd_chord_eq hp hP hQ

/-- Settles O29: the rule is `w_add` behind the range tests. -/
theorem wAddCommand : Obligations.WAddCommand :=
  fun _ => ⟨exec_of_mod_eq_zero .wAdd, fun hp h => exec_of_badOperand (ruleWAdd_of_not_inRange hp h),
    fun hp h1 h2 => exec_of_inRangeOrNotInvertible (ruleWAdd_of_inRange hp h1 h2)
      (wAdd_inRange _ hp h1 h2)⟩

/-- Settles O30, by the rows of `w_add` for a point and itself. -/
theorem wDblCommand : Obligations.WDblCommand := by
  refine fun s => ⟨exec_of_mod_eq_zero .wDbl, fun hp hinf => ?_, fun hp hfin => ⟨fun hout => ?_, ?_⟩⟩
  · have hP := State.point1_of_p1inf hinf
    exact exec_of_point_ok (ruleWDbl_of_inRange hp (by rw [hP]; rfl)) (by rw [hP]; rfl)
  · refine exec_of_badOperand (ruleWDbl_of_not_inRange hp ?_)
    rw [State.point1_of_not_p1inf hfin, inRange_aff]
    omega
  · intro hx hy
    have hP := State.point1_of_not_p1inf hfin
    have hrule := ruleWDbl_of_inRange hp (hP ▸ inRange_aff.mpr ⟨hx, hy⟩)
    rw [hP] at hrule
    refine ⟨fun h0 => ?_, fun h0 hg => ?_, fun h0 hg => ?_⟩
    · exact exec_of_point_ok hrule (wAdd_of_add_mod_eq_zero _ hp hy (by rwa [← two_mul]))
    · exact exec_of_point_error hrule (wAdd_double_of_not_coprime hp hy h0 hg)
    · obtain ⟨lam, x3, y3, hlam, hx3, hy3, hok, h⟩ := wAdd_double_of_coprime hp hy h0 hg
      exact ⟨lam, x3, y3, exec_of_point_ok hrule hok, hx3, hy3, hlam, h⟩

/-- Settles O31: both commands have one rule outcome. -/
theorem wDblIsWAddOfItself : Obligations.WDblIsWAddOfItself := by
  intro s s2
  obtain ⟨htag1, htag2⟩ := getLsbD_bothTags s.p1inf
  have h1 : s2.point1 = s.point1 := by rw [State.point1, State.p1inf, htag1]; rfl
  have h2 : s2.point2 = s.point1 := by rw [State.point2, State.p2inf, htag2]; rfl
  obtain ⟨t, u, ht, hu, hstatus, htag, hres, hx, hy⟩ :=
    exec_report_eq (ruleWDbl_eq_ruleWAdd (s := s) (t := s2) rfl rfl h1 h2)
  exact ⟨t, u, ht, hu, hstatus, State.point3_congr htag hx hy, htag, hres, hx, hy⟩

/-- Settles O32: the rule is `double_and_add` behind the range test. -/
theorem wSmulCommand : Obligations.WSmulCommand := by
  refine fun s => ⟨?_, fun hp hn h => ?_, fun hp hn h1 => ?_⟩
  · rintro (h | h)
    · exact exec_of_mod_eq_zero .wSmul h
    · exact exec_of_error (ruleWSmul_of_ord_eq_zero h)
  · exact exec_of_badOperand (ruleWSmul_of_not_inRange hp hn (by simp [h]))
  · exact exec_of_inRangeOrNotInvertible (ruleWSmul_of_inRange hp hn h1)
      (doubleAndAdd_inRange (fun _ _ => wAdd_inRange _ hp) _ _ h1)

/-- Settles O33: the outcome is that of `double_and_add`, which looks at the reduced scalar only. -/
theorem wSmulSmallMultiples : Obligations.WSmulSmallMultiples := by
  intro s hp hn h1
  have hrule := ruleWSmul_of_inRange hp hn h1
  refine ⟨?_, fun hk => ?_, fun hk => ?_, ?_⟩
  · rintro (hk | hinf)
    · exact exec_of_point_ok hrule (doubleAndAdd_of_mod_eq_zero hk _ _)
    · exact exec_of_point_ok hrule (by rw [hinf]; exact doubleAndAdd_inf (by simp))
  · exact exec_of_point_ok hrule (doubleAndAdd_of_mod_eq_one (by simp) _ hk)
  · rw [doubleAndAdd_of_mod_eq_two (by simp) _ hk, ← ruleWDbl_of_inRange hp h1] at hrule
    obtain ⟨t, u, ht, hu, hstatus, htag, -, hx, hy⟩ := exec_report_eq hrule
    exact ⟨t, u, ht, hu, hstatus, htag, hx, hy⟩
  · have hmod : ruleOf .wSmul s = ruleOf .wSmul { s with k := s.k % s.ord } := by
      have hred := ruleWSmul_of_inRange (s := { s with k := s.k % s.ord }) hp hn h1
      exact (hrule.trans (congrArg _ (doubleAndAdd_mod ..).symm)).trans hred.symm
    obtain ⟨t, u, ht, hu, hstatus, htag, -, hx, hy⟩ := exec_report_eq hmod
    exact ⟨t, u, ht, hu, hstatus, htag, hx, hy⟩

/-- Settles O34, by the closure of the curve's addition formulas, which needs no non-singularity. -/
theorem weierstrassAddStaysOnCurve : Obligations.WeierstrassAddStaysOnCurve := by
  intro p a b P Q hp hP hQ hPc hQc
  have : Fact p.Prime := ⟨hp⟩
  exact wAdd_onWCurve ⟨hP, hPc⟩ ⟨hQ, hQc⟩

/-- Settles O35: `w_add` keeps the points of the curve, and so does `double_and_add` over it. -/
theorem weierstrassCommandsComplete : Obligations.WeierstrassCommandsComplete := by
  intro s b hprime h1 h1c
  have : Fact s.mod.Prime := ⟨hprime⟩
  have hp := hprime.pos
  have hP : OnWCurve s.ca b s.mod s.point1 := ⟨h1, h1c⟩
  refine ⟨?_, fun hn => ?_, fun h2 h2c => ?_⟩
  · obtain ⟨Q, hQ, -, hQc⟩ := wAdd_onWCurve hP hP
    exact ⟨Q, exec_of_point_ok (ruleWDbl_of_inRange hp h1) hQ, hQc⟩
  · obtain ⟨Q, hQ, -, hQc⟩ := doubleAndAddLoop_keeps (fun _ _ => wAdd_onWCurve) (s.k % s.ord) hP _ .inf
      (onWCurve_inf _ _ _)
    exact ⟨Q, exec_of_point_ok (ruleWSmul_of_inRange hp hn h1) hQ, hQc⟩
  · obtain ⟨Q, hQ, -, hQc⟩ := wAdd_onWCurve hP ⟨h2, h2c⟩
    exact ⟨Q, exec_of_point_ok (ruleWAdd_of_inRange hp h1 h2) hQ, hQc⟩

/-- Settles O36: the points of a non-singular curve are a group, in which `n` times the point is
zero. -/
theorem weierstrassScalarDistributes : Obligations.WeierstrassScalarDistributes := by
  intro p a b n P hp hns hP hPc _ hn j k
  have : Fact p.Prime := ⟨hp⟩
  have hΔ : (wCurve a b p).Δ ≠ 0 := by
    rw [wCurve_Δ, neg_ne_zero, ne_eq, ZMod.natCast_eq_zero_iff]
    exact fun hdvd => hns (Nat.mod_eq_zero_of_dvd hdvd)
  exact (wAdd_isGroupLaw hΔ).doubleAndAdd_add (fun _ _ => wPoint_injective hΔ) ⟨hP, hPc⟩ hn j k

end Sys2Proof.Machine

/-! The Montgomery curve (42_montgomery_curve.md). Over a prime field with `B` not zero, `m_add` is the
addition of one of Mathlib's affine Weierstrass curves in the coordinates `(B·x, B²·y)`; that curve is
non-singular where `p` is odd and `B·(A² − 4)` is not zero. Modulo 2 it is singular, but there each
point is its own opposite. -/

namespace Sys2Proof.Machine

/-! ## The rows of the case table (42_montgomery_curve.md R185) -/

section
variable {x y A B p : Nat}

theorem mAdd_of_add_mod_eq_zero {y1 y2 : Nat} (A B : Nat) (hp : 0 < p) (hy : y1 < p)
    (h : (y1 + y2) % p = 0) : mAdd (.aff x y1) (.aff x y2) A B p = .ok .inf :=
  mAdd_neg ((eq_modN_neg_iff hy hp).mpr h)

theorem mAdd_double_eq (h : y ≠ modN (-(y : Int)) p) :
    mAdd (.aff x y) (.aff x y) A B p =
      lineThrough (3 * x * x + 2 * A * x + 1) (2 * B * y) (fun lam => B * lam * lam - A - x - x) x y p := by
  rw [mAdd_double h, lineThrough]
  split <;> next hs => rw [hs]; rfl

theorem modN_tangent_den (B y p : Nat) : modN (2 * (B : Int) * y) p = 2 * B * y % p := by
  exact_mod_cast modN_natCast (2 * B * y) p

theorem mAdd_double_of_coprime (hp : 0 < p) (hy : y < p) (h0 : 2 * y % p ≠ 0)
    (hg : Nat.gcd (2 * B * y % p) p = 1) :
    ∃ lam x3 y3 : Nat, lam * (2 * B * y) ≡ 3 * x * x + 2 * A * x + 1 [MOD p] ∧ x3 < p ∧ y3 < p ∧
      mAdd (.aff x y) (.aff x y) A B p = .ok (.aff x3 y3) ∧
      (x3 : Int) ≡ B * lam * lam - A - x - x [ZMOD p] ∧
      (y3 : Int) ≡ lam * ((x : Int) - x3) - y [ZMOD p] := by
  rw [mAdd_double_eq (ne_modN_neg hp hy (by rwa [← two_mul]))]
  obtain ⟨lam, x3, y3, hlam, h⟩ := lineThrough_of_coprime (3 * x * x + 2 * A * x + 1)
    (fun lam => B * lam * lam - A - x - x) x y hp (by rwa [modN_tangent_den])
  exact ⟨lam, x3, y3, Int.natCast_modEq_iff.mp (by exact_mod_cast hlam), h⟩

theorem mAdd_double_of_not_coprime (hp : 0 < p) (hy : y < p) (h0 : 2 * y % p ≠ 0)
    (hg : Nat.gcd (2 * B * y % p) p ≠ 1) :
    mAdd (.aff x y) (.aff x y) A B p = .error .notInvertible := by
  rw [mAdd_double_eq (ne_modN_neg hp hy (by rwa [← two_mul]))]
  exact lineThrough_of_not_coprime _ _ _ _ (by rwa [modN_tangent_den])

end

/-! ## The two rules on operands in range, and out of it -/

section
variable {s : State} (hp : 0 < s.mod)
include hp

theorem ruleMAdd_of_inRange (h1 : s.point1.inRange s.mod = true) (h2 : s.point2.inRange s.mod = true) :
    ruleOf .mAdd s = (mAdd s.point1 s.point2 s.ca s.cb s.mod).map .point := by
  simp [ruleOf, ruleMAdd, hp.ne', (checkPoint_ok_iff _ _).mpr h1, (checkPoint_ok_iff _ _).mpr h2]

theorem ruleMAdd_of_not_inRange
    (h : s.point1.inRange s.mod = false ∨ s.point2.inRange s.mod = false) :
    ruleOf .mAdd s = .error .badOperand := by
  by_cases h1 : s.point1.inRange s.mod
  · have h2 : ¬ s.point2.inRange s.mod := by simpa [h1] using h
    simp [ruleOf, ruleMAdd, hp.ne', (checkPoint_ok_iff _ _).mpr h1, checkPoint_of_not_inRange h2]
  · simp [ruleOf, ruleMAdd, hp.ne', checkPoint_of_not_inRange h1]

theorem ruleMSmul_of_inRange (hn : 0 < s.ord) (h1 : s.point1.inRange s.mod = true) :
    ruleOf .mSmul s =
      (doubleAndAdd s.k s.point1 s.ord fun Q1 Q2 => mAdd Q1 Q2 s.ca s.cb s.mod).map .point := by
  simp [ruleOf, ruleMSmul, hp.ne', hn.ne', (checkPoint_ok_iff _ _).mpr h1]

theorem ruleMSmul_of_not_inRange (hn : 0 < s.ord) (h1 : ¬ s.point1.inRange s.mod) :
    ruleOf .mSmul s = .error .badOperand := by
  simp [ruleOf, ruleMSmul, hp.ne', hn.ne', checkPoint_of_not_inRange h1]

end

theorem ruleMSmul_of_ord_eq_zero {s : State} (h : s.ord = 0) :
    ruleOf .mSmul s = .error .invalidModulus := by
  simp [ruleOf, ruleMSmul, h]

/-! ## In the coordinates `(B·x, B²·y)` `m_add` is the addition of Mathlib's Weierstrass curves -/

/-- The curve `Y² = X³ + A·B·X² + B²·X` over the integers modulo `p`: `B·y² = x³ + A·x² + x` (R181)
multiplied by `B³`, for `X = B·x` and `Y = B²·y`. -/
def mCurve (A B p : Nat) : WeierstrassCurve.Affine (ZMod p) where
  a₁ := 0
  a₂ := A * B
  a₃ := 0
  a₄ := B ^ 2
  a₆ := 0

/-- The slope of the line through two points `(x, y)`, in the coordinates of `mCurve`. -/
def mSlope (A B p : Nat) [Fact p.Prime] (x1 y1 x2 y2 : ZMod p) : ZMod p :=
  (mCurve A B p).slope (B * x1) (B * x2) (B ^ 2 * y1) (B ^ 2 * y2)

/-- A point of the curve: in range and on it (42_montgomery_curve.md R181, 41_weierstrass.md R156). -/
def OnMCurve (A B p : Nat) (P : Point) : Prop := P.inRange p = true ∧ mIsOnCurve P A B p = true

theorem onMCurve_inf (A B p : Nat) : OnMCurve A B p .inf := ⟨rfl, rfl⟩

section
variable {A B p : Nat} [Fact p.Prime]

@[simp] theorem mCurve_negY (X Y : ZMod p) : (mCurve A B p).negY X Y = -Y := by
  simp [WeierstrassCurve.Affine.negY, mCurve]

theorem mCurve_addX (x1 x2 lam : ZMod p) :
    (mCurve A B p).addX (B * x1) (B * x2) (B * lam) = B * (B * lam * lam - A - x1 - x2) := by
  simp only [WeierstrassCurve.Affine.addX, mCurve]
  ring

theorem mCurve_addY {x1 x2 x3 y1 lam : ZMod p}
    (h : B * x3 = (mCurve A B p).addX (B * x1) (B * x2) (B * lam)) :
    (mCurve A B p).addY (B * x1) (B * x2) (B ^ 2 * y1) (B * lam) = B ^ 2 * (lam * (x1 - x3) - y1) := by
  simp only [WeierstrassCurve.Affine.addY, WeierstrassCurve.Affine.negAddY, mCurve_negY, ← h]
  ring

/-- The line with the slope of the curve ends in the point of the curve's addition formulas. -/
theorem lineThrough_mCurve {num den : Int} {x1 y1 x2 : Nat} (y2 : Nat) (hden : (den : ZMod p) ≠ 0)
    (hslope : B * ((num : ZMod p) / den) = mSlope A B p x1 y1 x2 y2) :
    ∃ x3 y3 : Nat,
      lineThrough num den (fun lam => B * lam * lam - A - x1 - x2) x1 y1 p = .ok (.aff x3 y3) ∧
      x3 < p ∧ y3 < p ∧
      B * (x3 : ZMod p) = (mCurve A B p).addX (B * x1) (B * x2) (mSlope A B p x1 y1 x2 y2) ∧
      B ^ 2 * (y3 : ZMod p) = (mCurve A B p).addY (B * x1) (B * x2) (B ^ 2 * y1)
        (mSlope A B p x1 y1 x2 y2) := by
  obtain ⟨lam, x3, y3, hok, hx3, hy3, hlam, hx, hy⟩ :=
    lineThrough_of_ne_zero num (fun lam => B * lam * lam - A - x1 - x2) x1 y1 hden
  push_cast at hx
  rw [← hslope, ← hlam]
  have hX : B * (x3 : ZMod p) = (mCurve A B p).addX (B * x1) (B * x2) (B * lam) := by
    rw [mCurve_addX, hx]
  exact ⟨x3, y3, hok, hx3, hy3, hX, by rw [mCurve_addY hX, hy]⟩

section
variable (hB : (B : ZMod p) ≠ 0)
include hB

theorem onMCurve_aff {x y : Nat} :
    OnMCurve A B p (.aff x y) ↔ x < p ∧ y < p ∧ (mCurve A B p).Equation (B * x) (B ^ 2 * y) := by
  have hp : 0 < p := (Fact.out : p.Prime).pos
  have hcast := natCast_modN ((B : Int) * y * y - (x * x * x + A * x * x + x)) hp
  push_cast at hcast
  have hcube : ((B : ZMod p) ^ 2 * y) ^ 2 - ((B * x) ^ 3 + A * B * (B * x) ^ 2 + B ^ 2 * (B * x)) =
      B ^ 3 * (B * y * y - (x * x * x + A * x * x + x)) := by ring
  have heq : (mCurve A B p).Equation (B * x) (B ^ 2 * y) ↔
      (B : ZMod p) * y * y - (x * x * x + A * x * x + x) = 0 := by
    rw [← mul_eq_zero_iff_left (pow_ne_zero 3 hB), ← hcube, sub_eq_zero,
      WeierstrassCurve.Affine.equation_iff]
    simp [mCurve]
  rw [OnMCurve, inRange_aff, and_assoc, mIsOnCurve, beq_iff_eq, heq, ← hcast,
    ← natCast_inj_of_lt (modN_lt _ hp) hp, Nat.cast_zero]

theorem mSlope_self {x y : ZMod p} (h : y ≠ -y) :
    mSlope A B p x y x y = B * ((3 * x * x + 2 * A * x + 1) / (2 * B * y)) := by
  have hne : (B : ZMod p) ^ 2 * y ≠ (mCurve A B p).negY (B * x) (B ^ 2 * y) := by
    rwa [mCurve_negY, ← mul_neg, ne_eq, mul_right_inj' (pow_ne_zero 2 hB)]
  rw [mSlope, WeierstrassCurve.Affine.slope_of_Y_ne rfl hne, mCurve_negY]
  simp only [mCurve]
  calc _ = (B : ZMod p) ^ 2 * (3 * x * x + 2 * A * x + 1) / (B ^ 2 * (2 * y)) := by ring
    _ = B * (3 * x * x + 2 * A * x + 1) / (B * (2 * y)) := by
      rw [mul_div_mul_left _ _ (pow_ne_zero 2 hB), mul_div_mul_left _ _ hB]
    _ = B * ((3 * x * x + 2 * A * x + 1) / (2 * B * y)) := by ring

theorem mSlope_of_ne {x1 x2 y1 y2 : ZMod p} (h : x1 ≠ x2) :
    mSlope A B p x1 y1 x2 y2 = B * ((y2 - y1) / (x2 - x1)) := by
  have hne : (B : ZMod p) * x1 ≠ B * x2 := by rwa [ne_eq, mul_right_inj' hB]
  rw [mSlope, WeierstrassCurve.Affine.slope_of_X_ne hne, ← mul_sub, ← mul_sub, pow_two, mul_assoc,
    mul_div_mul_left _ _ hB, mul_div_assoc, ← neg_div_neg_eq, neg_sub, neg_sub]

section
variable {x1 y1 x2 y2 : Nat} (h1 : OnMCurve A B p (.aff x1 y1)) (h2 : OnMCurve A B p (.aff x2 y2))
include h1 h2

/-- The test of case 2 of `m_add` says that the two points are opposite on the curve. -/
theorem mCurve_eq_negY_iff :
    ((B * x1 : ZMod p) = B * x2 ∧ (B ^ 2 * y1 : ZMod p) = (mCurve A B p).negY (B * x2) (B ^ 2 * y2)) ↔
      x1 = x2 ∧ y1 = modN (-(y2 : Int)) p := by
  have hp : 0 < p := (Fact.out : p.Prime).pos
  obtain ⟨hx1, hy1, -⟩ := (onMCurve_aff hB).mp h1
  obtain ⟨hx2, -, -⟩ := (onMCurve_aff hB).mp h2
  rw [mCurve_negY, ← mul_neg, mul_right_inj' hB, mul_right_inj' (pow_ne_zero 2 hB),
    natCast_inj_of_lt hx1 hx2, ← natCast_inj_of_lt hy1 (modN_lt _ hp), natCast_modN _ hp,
    Int.cast_neg, Int.cast_natCast]

/-- Cases 3 and 4 of `m_add` are the addition formulas of the curve. -/
theorem mAdd_of_ne_neg (hxy : ¬(x1 = x2 ∧ y1 = modN (-(y2 : Int)) p)) :
    ∃ x3 y3 : Nat, mAdd (.aff x1 y1) (.aff x2 y2) A B p = .ok (.aff x3 y3) ∧ x3 < p ∧ y3 < p ∧
      B * (x3 : ZMod p) = (mCurve A B p).addX (B * x1) (B * x2) (mSlope A B p x1 y1 x2 y2) ∧
      B ^ 2 * (y3 : ZMod p) = (mCurve A B p).addY (B * x1) (B * x2) (B ^ 2 * y1)
        (mSlope A B p x1 y1 x2 y2) := by
  have hneg := (mCurve_eq_negY_iff hB h1 h2).not.mpr hxy
  obtain ⟨hx1, hy1, he1⟩ := (onMCurve_aff hB).mp h1
  obtain ⟨hx2, hy2, he2⟩ := (onMCurve_aff hB).mp h2
  by_cases hx : x1 = x2
  · subst hx
    have hneg' := fun h => hneg ⟨rfl, h⟩
    have hy := WeierstrassCurve.Affine.Y_eq_of_Y_ne he1 he2 rfl hneg'
    obtain rfl := (natCast_inj_of_lt hy1 hy2).mp (mul_left_cancel₀ (pow_ne_zero 2 hB) hy)
    have hy0 : (y1 : ZMod p) ≠ -y1 := fun h => hneg' (by rw [mCurve_negY, ← mul_neg, ← h])
    rw [mAdd_double_eq fun h => hxy ⟨rfl, h⟩]
    refine lineThrough_mCurve y1 ?_ ?_ <;> push_cast
    · rw [mul_right_comm, two_mul]
      exact mul_ne_zero (fun h => hy0 (eq_neg_of_add_eq_zero_left h)) hB
    · exact (mSlope_self hB hy0).symm
  · have hx' : (x1 : ZMod p) ≠ x2 := (natCast_inj_of_lt hx1 hx2).not.mpr hx
    rw [mAdd_chord_eq (.inl hx)]
    refine lineThrough_mCurve y2 ?_ ?_ <;> push_cast
    · exact sub_ne_zero.mpr hx'.symm
    · exact (mSlope_of_ne hB hx').symm

end

/-- Points of the curve, singular or not, add up to points of the curve (42_montgomery_curve.md R187). -/
theorem mAdd_onMCurve {P Q : Point} (hP : OnMCurve A B p P) (hQ : OnMCurve A B p Q) :
    ∃ R, mAdd P Q A B p = .ok R ∧ OnMCurve A B p R := by
  match P, Q with
  | .inf, Q => exact ⟨Q, mAdd_inf_left Q A B p, hQ⟩
  | .aff x y, .inf => exact ⟨_, mAdd_inf_right _ A B p, hP⟩
  | .aff x1 y1, .aff x2 y2 =>
    by_cases hxy : x1 = x2 ∧ y1 = modN (-(y2 : Int)) p
    · obtain ⟨rfl, hy⟩ := hxy
      exact ⟨.inf, mAdd_neg hy, onMCurve_inf A B p⟩
    · obtain ⟨-, -, he1⟩ := (onMCurve_aff hB).mp hP
      obtain ⟨-, -, he2⟩ := (onMCurve_aff hB).mp hQ
      obtain ⟨x3, y3, hok, hx3, hy3, hx, hy⟩ := mAdd_of_ne_neg hB hP hQ hxy
      refine ⟨.aff x3 y3, hok, (onMCurve_aff hB).mpr ⟨hx3, hy3, ?_⟩⟩
      rw [hx, hy]
      exact WeierstrassCurve.Affine.equation_add he1 he2 ((mCurve_eq_negY_iff hB hP hQ).not.mpr hxy)

end

/-! ### The group of a non-singular curve -/

open Classical in
/-- A point of the curve in Mathlib's group; anything else is sent to zero. -/
noncomputable def mPoint (A B p : Nat) [Fact p.Prime] : Point → (mCurve A B p).Point
  | .inf => 0
  | .aff x y => if h : (mCurve A B p).Nonsingular (B * x) (B ^ 2 * y) then .some _ _ h else 0

theorem mPoint_aff {x y : Nat} (h : (mCurve A B p).Nonsingular (B * x) (B ^ 2 * y)) :
    mPoint A B p (.aff x y) = .some _ _ h := dif_pos h

theorem mCurve_Δ : (mCurve A B p).Δ = 16 * B ^ 6 * (A ^ 2 - 4) := by
  simp only [WeierstrassCurve.Δ, WeierstrassCurve.b₂, WeierstrassCurve.b₄, WeierstrassCurve.b₆,
    WeierstrassCurve.b₈, mCurve]
  ring

section
variable (hB : (B : ZMod p) ≠ 0) (hΔ : (mCurve A B p).Δ ≠ 0)
include hB hΔ

theorem OnMCurve.nonsingular {x y : Nat} (h : OnMCurve A B p (.aff x y)) :
    (mCurve A B p).Nonsingular (B * x) (B ^ 2 * y) := by
  obtain ⟨-, -, he⟩ := (onMCurve_aff hB).mp h
  exact ((mCurve A B p).equation_iff_nonsingular_of_Δ_ne_zero hΔ).mp he

theorem mPoint_injective {P Q : Point} (hP : OnMCurve A B p P) (hQ : OnMCurve A B p Q)
    (h : mPoint A B p P = mPoint A B p Q) : P = Q := by
  match P, Q with
  | .inf, .inf => rfl
  | .inf, .aff x y =>
    rw [mPoint_aff (hQ.nonsingular hB hΔ)] at h
    exact absurd h.symm (WeierstrassCurve.Affine.Point.some_ne_zero _)
  | .aff x y, .inf =>
    rw [mPoint_aff (hP.nonsingular hB hΔ)] at h
    exact absurd h (WeierstrassCurve.Affine.Point.some_ne_zero _)
  | .aff x1 y1, .aff x2 y2 =>
    rw [mPoint_aff (hP.nonsingular hB hΔ), mPoint_aff (hQ.nonsingular hB hΔ)] at h
    obtain ⟨hx1, hy1, -⟩ := (onMCurve_aff hB).mp hP
    obtain ⟨hx2, hy2, -⟩ := (onMCurve_aff hB).mp hQ
    injection h with hx hy
    rw [(natCast_inj_of_lt hx1 hx2).mp (mul_left_cancel₀ hB hx),
      (natCast_inj_of_lt hy1 hy2).mp (mul_left_cancel₀ (pow_ne_zero 2 hB) hy)]

theorem mAdd_isGroupLaw :
    IsGroupLaw (OnMCurve A B p) (mPoint A B p) (fun Q1 Q2 => mAdd Q1 Q2 A B p) where
  inf := onMCurve_inf A B p
  map_inf := rfl
  add P Q hP hQ := by
    obtain ⟨R, hok, hR⟩ := mAdd_onMCurve hB hP hQ
    refine ⟨R, hok, hR, ?_⟩
    match P, Q with
    | .inf, Q =>
      obtain rfl := Except.ok.inj (hok.symm.trans (mAdd_inf_left Q A B p))
      exact (zero_add _).symm
    | .aff x y, .inf =>
      obtain rfl := Except.ok.inj (hok.symm.trans (mAdd_inf_right _ A B p))
      exact (add_zero _).symm
    | .aff x1 y1, .aff x2 y2 =>
      have hiff := mCurve_eq_negY_iff hB hP hQ
      rw [mPoint_aff (hP.nonsingular hB hΔ), mPoint_aff (hQ.nonsingular hB hΔ)]
      by_cases hxy : x1 = x2 ∧ y1 = modN (-(y2 : Int)) p
      · obtain ⟨hX, hY⟩ := hiff.mpr hxy
        obtain ⟨rfl, hy⟩ := hxy
        obtain rfl := Except.ok.inj (hok.symm.trans (mAdd_neg hy))
        exact (WeierstrassCurve.Affine.Point.add_of_Y_eq hX hY).symm
      · obtain ⟨x3, y3, hok', -, -, hx, hy⟩ := mAdd_of_ne_neg hB hP hQ hxy
        obtain rfl := Except.ok.inj (hok.symm.trans hok')
        rw [mPoint_aff (hR.nonsingular hB hΔ), WeierstrassCurve.Affine.Point.add_some (hiff.not.mpr hxy)]
        simp only [hx, hy, mSlope]

end

end

/-! ### Modulo 2 each point is its own opposite -/

/-- `Inf` and one other point, as the group of two elements. -/
def Point.parity : Point → ZMod 2
  | .inf => 0
  | .aff _ _ => 1

theorem isGroupLaw_of_add_self {add : Point → Point → Except Failure Point} {P : Point}
    (hl : ∀ Q, add .inf Q = .ok Q) (hr : ∀ Q, add Q .inf = .ok Q) (hself : add P P = .ok .inf) :
    IsGroupLaw (fun Q => Q = .inf ∨ Q = P) Point.parity add where
  inf := .inl rfl
  map_inf := rfl
  add := by
    rintro Q R (rfl | rfl) hR
    · exact ⟨R, hl R, hR, (zero_add _).symm⟩
    · rcases hR with rfl | rfl
      · exact ⟨Q, hr Q, .inr rfl, (add_zero _).symm⟩
      · exact ⟨.inf, hself, .inl rfl, (CharTwo.add_self_eq_zero _).symm⟩

theorem Point.parity_injective {P Q R : Point} (hQ : Q = .inf ∨ Q = P) (hR : R = .inf ∨ R = P)
    (h : Q.parity = R.parity) : Q = R := by
  match Q, R with
  | .inf, .inf => rfl
  | .inf, .aff _ _ => exact absurd h zero_ne_one
  | .aff _ _, .inf => exact absurd h one_ne_zero
  | .aff _ _, .aff _ _ => exact (hQ.resolve_left nofun).trans (hR.resolve_left nofun).symm

theorem mAdd_self_mod_two {P : Point} (A B : Nat) (h : P.inRange 2 = true) :
    mAdd P P A B 2 = .ok .inf := by
  match P with
  | .inf => rfl
  | .aff x y =>
    obtain ⟨-, hy⟩ := inRange_aff.mp h
    exact mAdd_of_add_mod_eq_zero A B two_pos hy (by omega)

/-! ### The premises on the curve, in the field -/

theorem natCast_ne_zero_of_mod_ne_zero {B p : Nat} (h : B % p ≠ 0) : (B : ZMod p) ≠ 0 :=
  fun h0 => h (Nat.mod_eq_zero_of_dvd ((ZMod.natCast_eq_zero_iff B p).mp h0))

/-- R187's premise on the curve, in the field. -/
theorem ne_zero_of_modN_ne_zero {A B p : Nat} [Fact p.Prime]
    (h : modN ((B : Int) * ((A : Int) ^ 2 - 4)) p ≠ 0) : (B : ZMod p) * (A ^ 2 - 4) ≠ 0 := by
  have hp : 0 < p := (Fact.out : p.Prime).pos
  have hcast := natCast_modN ((B : Int) * ((A : Int) ^ 2 - 4)) hp
  push_cast at hcast
  rwa [← hcast, ← Nat.cast_zero, ne_eq, natCast_inj_of_lt (modN_lt _ hp) hp]

/-- Modulo an odd prime, R187's premise says that the curve is non-singular. -/
theorem mCurve_Δ_ne_zero {A B p : Nat} [Fact p.Prime] (hp2 : p ≠ 2)
    (h : (B : ZMod p) * (A ^ 2 - 4) ≠ 0) : (mCurve A B p).Δ ≠ 0 := by
  have h2 : (2 : ZMod p) ≠ 0 := Ring.two_ne_zero (by rwa [ZMod.ringChar_zmod_n])
  have h16 : (16 : ZMod p) = 2 ^ 4 := by norm_num
  rw [mCurve_Δ, h16]
  exact mul_ne_zero (mul_ne_zero (pow_ne_zero 4 h2) (pow_ne_zero 6 (left_ne_zero_of_mul h)))
    (right_ne_zero_of_mul h)

/-! ## The obligations -/

/-- Settles O37: case 2 is a sum of y-coordinates that vanishes modulo `p`, case 3 the tangent, case 4
the chord, which two points with the same x-coordinate do not have. -/
theorem montgomeryAddCases : Obligations.MontgomeryAddCases := by
  refine fun A B p hp => ⟨fun Q => mAdd_inf_left Q A B p, fun P => mAdd_inf_right P A B p, ?_⟩
  intro x1 y1 x2 y2 hx1 hy1 hx2 hy2
  refine ⟨?_, ?_, ?_, fun hx => ?_⟩
  · rintro rfl h
    exact mAdd_of_add_mod_eq_zero A B hp hy1 h
  · rintro rfl rfl h0
    exact ⟨mAdd_double_of_not_coprime hp hy1 h0, mAdd_double_of_coprime hp hy1 h0⟩
  · rintro rfl hy h0
    rw [mAdd_chord_eq (.inr ⟨ne_modN_neg hp hy1 h0, hy⟩)]
    exact lineThrough_of_not_coprime _ _ _ _ (gcd_modN_sub_self x1 (by omega))
  · rw [mAdd_chord_eq (.inl hx)]
    exact ⟨lineThrough_of_not_coprime _ _ _ _, lineThrough_of_coprime _ _ _ _ hp⟩

/-- Settles O38: the rule is `m_add` behind the range tests. -/
theorem mAddCommand : Obligations.MAddCommand :=
  fun _ => ⟨exec_of_mod_eq_zero .mAdd, fun hp h => exec_of_badOperand (ruleMAdd_of_not_inRange hp h),
    fun hp h1 h2 => exec_of_inRangeOrNotInvertible (ruleMAdd_of_inRange hp h1 h2)
      (mAdd_inRange _ _ hp h1 h2)⟩

/-- Settles O39: the rule is `double_and_add` behind the range test. -/
theorem mSmulCommand : Obligations.MSmulCommand := by
  refine fun s => ⟨?_, fun hp hn h => ?_, fun hp hn h1 => ?_⟩
  · rintro (h | h)
    · exact exec_of_mod_eq_zero .mSmul h
    · exact exec_of_error (ruleMSmul_of_ord_eq_zero h)
  · exact exec_of_badOperand (ruleMSmul_of_not_inRange hp hn (by simp [h]))
  · exact exec_of_inRangeOrNotInvertible (ruleMSmul_of_inRange hp hn h1)
      (doubleAndAdd_inRange (fun _ _ => mAdd_inRange _ _ hp) _ _ h1)

/-- Settles O40: the outcome is that of `double_and_add`, which looks at the reduced scalar only. -/
theorem mSmulSmallMultiples : Obligations.MSmulSmallMultiples := by
  intro s hp hn h1
  have hrule := ruleMSmul_of_inRange hp hn h1
  refine ⟨?_, fun hk => ?_, fun hk h2 => ?_, ?_⟩
  · rintro (hk | hinf)
    · exact exec_of_point_ok hrule (doubleAndAdd_of_mod_eq_zero hk _ _)
    · exact exec_of_point_ok hrule (by rw [hinf]; exact doubleAndAdd_inf (by simp))
  · exact exec_of_point_ok hrule (doubleAndAdd_of_mod_eq_one (by simp) _ hk)
  · have hadd : ruleOf .mAdd s = (mAdd s.point1 s.point1 s.ca s.cb s.mod).map .point := by
      rw [ruleMAdd_of_inRange hp h1 (h2 ▸ h1), h2]
    rw [doubleAndAdd_of_mod_eq_two (by simp) _ hk, ← hadd] at hrule
    obtain ⟨t, u, ht, hu, hstatus, htag, -, hx, hy⟩ := exec_report_eq hrule
    exact ⟨t, u, ht, hu, hstatus, htag, hx, hy⟩
  · have hmod : ruleOf .mSmul s = ruleOf .mSmul { s with k := s.k % s.ord } := by
      have hred := ruleMSmul_of_inRange (s := { s with k := s.k % s.ord }) hp hn h1
      exact (hrule.trans (congrArg _ (doubleAndAdd_mod ..).symm)).trans hred.symm
    obtain ⟨t, u, ht, hu, hstatus, htag, -, hx, hy⟩ := exec_report_eq hmod
    exact ⟨t, u, ht, hu, hstatus, htag, hx, hy⟩

/-- Settles O41, by the closure of the curve's addition formulas, which needs no non-singularity. -/
theorem montgomeryAddStaysOnCurve : Obligations.MontgomeryAddStaysOnCurve := by
  intro p A B P Q hp hB hP hQ hPc hQc
  have : Fact p.Prime := ⟨hp⟩
  exact mAdd_onMCurve (natCast_ne_zero_of_mod_ne_zero hB) ⟨hP, hPc⟩ ⟨hQ, hQc⟩

/-- Settles O42: `m_add` keeps the points of the curve, and so does `double_and_add` over it. -/
theorem montgomeryCommandsComplete : Obligations.MontgomeryCommandsComplete := by
  intro s hprime hB h1 h1c
  have : Fact s.mod.Prime := ⟨hprime⟩
  have hp := hprime.pos
  have hB' := natCast_ne_zero_of_mod_ne_zero hB
  have hP : OnMCurve s.ca s.cb s.mod s.point1 := ⟨h1, h1c⟩
  refine ⟨fun hn => ?_, fun h2 h2c => ?_⟩
  · obtain ⟨Q, hQ, -, hQc⟩ := doubleAndAddLoop_keeps (fun _ _ => mAdd_onMCurve hB') (s.k % s.ord) hP _
      .inf (onMCurve_inf _ _ _)
    exact ⟨Q, exec_of_point_ok (ruleMSmul_of_inRange hp hn h1) hQ, hQc⟩
  · obtain ⟨Q, hQ, -, hQc⟩ := mAdd_onMCurve hB' hP ⟨h2, h2c⟩
    exact ⟨Q, exec_of_point_ok (ruleMAdd_of_inRange hp h1 h2) hQ, hQc⟩

/-- Settles O43: modulo an odd prime the points of the curve are a group, in which `n` times the point
is zero; modulo 2 the multiples of the point are `Inf` and the point itself. -/
theorem montgomeryScalarDistributes : Obligations.MontgomeryScalarDistributes := by
  intro p A B n P hp hns hP hPc _ hn j k
  have : Fact p.Prime := ⟨hp⟩
  by_cases hp2 : p = 2
  · subst hp2
    have hlaw := isGroupLaw_of_add_self (add := fun Q1 Q2 => mAdd Q1 Q2 A B 2) (by simp) (by simp)
      (mAdd_self_mod_two A B hP)
    exact hlaw.doubleAndAdd_add (fun _ _ => Point.parity_injective) (.inr rfl) hn j k
  · have hns' := ne_zero_of_modN_ne_zero hns
    have hB := left_ne_zero_of_mul hns'
    have hΔ := mCurve_Δ_ne_zero hp2 hns'
    exact (mAdd_isGroupLaw hB hΔ).doubleAndAdd_add (fun _ _ => mPoint_injective hB hΔ) ⟨hP, hPc⟩ hn j k

end Sys2Proof.Machine

/-! Failures (60_exceptions.md). A write to `CMD` reports the first of its tests that is not passed,
in the order of R205; behind the tests only NotInvertible is left. A failed write leaves nothing but
its code (R204), and no run reports the reserved code 3 (R207). -/

namespace Sys2Proof.Machine

/-! ## What a write to `CMD` reports -/

section
variable {v : Word} {i : Instr} {s : State}

theorem issue_of_rule_error (hd : decode v = .ok i) {k : Failure} (hk : ruleOf i s = .error k) :
    issue v s = .next (s.afterFailure v (statusFail k)) := by
  rw [issue_of_decode_ok hd, exec_of_error hk, beginCommand_raise, encode_of_decode hd]

theorem issue_of_rule_ok (hd : decode v = .ok i) {r : Result} (hr : ruleOf i s = .ok r) :
    issue v s = .next ((s.beginCommand v).succeed r) := by
  rw [issue_of_decode_ok hd, exec_of_ok hr, encode_of_decode hd]

/-- Everything a write to `CMD` can do: succeed, or leave the code of a failure. -/
theorem issue_cases {t : State} (h : issue v s = .next t) :
    (∃ r, t = (s.beginCommand v).succeed r) ∨ ∃ k, t = s.afterFailure v (statusFail k) := by
  rcases hd : decode v with e | i
  · exact .inr ⟨.illegalCommand, Host.Outcome.next.inj (h.symm.trans (issue_of_decode_error hd s))⟩
  rcases hr : ruleOf i s with k | r
  · exact .inr ⟨k, Host.Outcome.next.inj (h.symm.trans (issue_of_rule_error hd hr))⟩
  · exact .inl ⟨r, Host.Outcome.next.inj (h.symm.trans (issue_of_rule_ok hd hr))⟩

theorem issue_status_of_rule_error {t : State} (h : issue v s = .next t) (hd : decode v = .ok i)
    {k : Failure} (hk : ruleOf i s = .error k) : t.status = statusFail k := by
  obtain rfl := Host.Outcome.next.inj (h.symm.trans (issue_of_rule_error hd hk))
  rfl

theorem issue_status_of_rule_ok {t : State} (h : issue v s = .next t) (hd : decode v = .ok i)
    {r : Result} (hr : ruleOf i s = .ok r) : t.status = 0x10#32 := by
  obtain rfl := Host.Outcome.next.inj (h.symm.trans (issue_of_rule_ok hd hr))
  simp

end

/-! ## The tests behind the modulus test (60_exceptions.md R205) -/

section
variable (i : Instr) (s : State)

/-- MONTMUL has an even modulus. -/
def HasEvenModulus : Prop := i = .montmul ∧ s.mod % 2 = 0

/-- A scalar multiplication has order zero. -/
def HasZeroOrder : Prop := (i = .wSmul ∨ i = .mSmul) ∧ s.ord = 0

/-- A curve command has `P1` out of range. -/
def HasBadP1 : Prop := isModular i = false ∧ s.point1.inRange s.mod = false

/-- A point addition has `P2` out of range. -/
def HasBadP2 : Prop := (i = .wAdd ∨ i = .mAdd) ∧ s.point2.inRange s.mod = false

end

section
variable {i : Instr} {s : State}

theorem ruleOf_of_evenModulus (h : HasEvenModulus i s) : ruleOf i s = .error .invalidModulus := by
  obtain ⟨rfl, heven⟩ := h
  simp [ruleOf, ruleMontmul, montmul_of_even _ _ _ heven, Except.map]

theorem ruleOf_of_zeroOrder (h : HasZeroOrder i s) : ruleOf i s = .error .invalidModulus := by
  obtain ⟨rfl | rfl, hord⟩ := h
  · exact ruleWSmul_of_ord_eq_zero hord
  · exact ruleMSmul_of_ord_eq_zero hord

/-- A point computation on operands in range fails with NotInvertible only. -/
theorem eq_notInvertible_of_map_point {p : Nat} {x : Except Failure Point} {k : Failure}
    (hx : InRangeOrNotInvertible p x) (h : x.map Result.point = .error k) : k = .notInvertible := by
  obtain ⟨R, rfl, -⟩ | ⟨e, rfl, rfl⟩ := hx
  · cases h
  · exact (Except.error.inj h).symm

variable (hp : 0 < s.mod)
include hp

theorem ruleOf_of_badP1 (hord : ¬ HasZeroOrder i s) (h : HasBadP1 i s) :
    ruleOf i s = .error .badOperand := by
  obtain ⟨hi, h1⟩ := h
  have h1' : ¬ s.point1.inRange s.mod := by simp [h1]
  cases i with
  | montmul | barrett | modinv => cases hi
  | wAdd => exact ruleWAdd_of_not_inRange hp (.inl h1)
  | wDbl => exact ruleWDbl_of_not_inRange hp h1'
  | wSmul => exact ruleWSmul_of_not_inRange hp (Nat.pos_of_ne_zero fun h => hord ⟨.inl rfl, h⟩) h1'
  | mAdd => exact ruleMAdd_of_not_inRange hp (.inl h1)
  | mSmul => exact ruleMSmul_of_not_inRange hp (Nat.pos_of_ne_zero fun h => hord ⟨.inr rfl, h⟩) h1'

theorem ruleOf_of_badP2 (h : HasBadP2 i s) : ruleOf i s = .error .badOperand := by
  obtain ⟨rfl | rfl, h2⟩ := h
  · exact ruleWAdd_of_not_inRange hp (.inr h2)
  · exact ruleMAdd_of_not_inRange hp (.inr h2)

/-- A command that passes every test fails with NotInvertible only (60_exceptions.md R202). -/
theorem eq_notInvertible_of_passes_tests (heven : ¬ HasEvenModulus i s) (hord : ¬ HasZeroOrder i s)
    (h1 : ¬ HasBadP1 i s) (h2 : ¬ HasBadP2 i s) {k : Failure} (hk : ruleOf i s = .error k) :
    k = .notInvertible := by
  have hP1 : isModular i = false → s.point1.inRange s.mod = true := by simpa [HasBadP1] using h1
  have hP2 : i = .wAdd ∨ i = .mAdd → s.point2.inRange s.mod = true := by simpa [HasBadP2] using h2
  have hn : i = .wSmul ∨ i = .mSmul → 0 < s.ord := fun hi =>
    Nat.pos_of_ne_zero fun h => hord ⟨hi, h⟩
  cases i with
  | montmul =>
    have hodd : s.mod % 2 = 1 := Nat.mod_two_ne_zero.mp fun h => heven ⟨rfl, h⟩
    obtain ⟨_, -, -, hok⟩ := montmul_of_odd s.cfg.width s.opa s.opb hodd
    cases hok.symm.trans (eq_error_of_map hk)
  | barrett => cases (barrett_of_pos _ hp).symm.trans (eq_error_of_map hk)
  | modinv => exact modInverse_error ((modinv_of_pos _ hp).symm.trans (eq_error_of_map hk))
  | wAdd =>
    have hQ := hP2 (.inl rfl)
    rw [ruleWAdd_of_inRange hp (hP1 rfl) hQ] at hk
    exact eq_notInvertible_of_map_point (wAdd_inRange _ hp (hP1 rfl) hQ) hk
  | wDbl =>
    rw [ruleWDbl_of_inRange hp (hP1 rfl)] at hk
    exact eq_notInvertible_of_map_point (wAdd_inRange _ hp (hP1 rfl) (hP1 rfl)) hk
  | wSmul =>
    rw [ruleWSmul_of_inRange hp (hn (.inl rfl)) (hP1 rfl)] at hk
    exact eq_notInvertible_of_map_point
      (doubleAndAdd_inRange (fun _ _ => wAdd_inRange _ hp) _ _ (hP1 rfl)) hk
  | mAdd =>
    have hQ := hP2 (.inr rfl)
    rw [ruleMAdd_of_inRange hp (hP1 rfl) hQ] at hk
    exact eq_notInvertible_of_map_point (mAdd_inRange _ _ hp (hP1 rfl) hQ) hk
  | mSmul =>
    rw [ruleMSmul_of_inRange hp (hn (.inr rfl)) (hP1 rfl)] at hk
    exact eq_notInvertible_of_map_point
      (doubleAndAdd_inRange (fun _ _ => mAdd_inRange _ _ hp) _ _ (hP1 rfl)) hk

end

/-- NotInvertible is reported by MODINV and the curve commands only (60_exceptions.md R200). -/
theorem ne_of_ruleOf_notInvertible {i : Instr} {s : State} (h : ruleOf i s = .error .notInvertible) :
    i ≠ .montmul ∧ i ≠ .barrett := by
  have hrule := ruleOf_mayAnswer i s
  rwa [h] at hrule

/-! ## What `STATUS` says in a reachable state -/

theorem Reachable.inv {s : State} (h : Reachable s) : s.Inv := by
  induction h with
  | start c hc events => exact (resetWith_inv hc).with_pending_answers events []
  | step s t _ hstep ih => exact stepKeepsInvariant s t ih hstep

/-- The fields of a `STATUS` word (10_state.md R33). -/
theorem State.fields_of_status {s : State} {b : Bool} {e : BitVec 4} (h : s.status = statusWord b e) :
    s.err = e ∧ s.rvalid = b := by
  rw [State.err, State.rvalid, h]
  clear h
  revert b e
  decide

/-- The three kinds of report: none since reset, a success, or a failure other than NoValidPoint. -/
theorem State.LastOutcome.status_cases {s : State} (h : s.LastOutcome) :
    (s.status = statusWord false 0#4 ∧ s.cmd = 0#32 ∧ s.resultsZero) ∨
    s.status = statusOk ∨
    ∃ k, k ≠ .noValidPoint ∧ s.status = statusFail k ∧ s.resultsZero := by
  cases h with
  | none hs hc hz => exact .inl ⟨hs, hc, hz⟩
  | ok _ hs => exact .inr (.inl hs)
  | invalidModulus _ hs _ hz => exact .inr (.inr ⟨.invalidModulus, by decide, hs, hz⟩)
  | notInvertible _ hs _ _ hz => exact .inr (.inr ⟨.notInvertible, by decide, hs, hz⟩)
  | illegalCommand _ hs _ hz => exact .inr (.inr ⟨.illegalCommand, by decide, hs, hz⟩)
  | badOperand _ hs _ _ hz => exact .inr (.inr ⟨.badOperand, by decide, hs, hz⟩)

theorem Failure.code_ne_zero (k : Failure) : k.code ≠ 0#4 := by cases k <;> decide

theorem Failure.code_le_five (k : Failure) : k.code.toNat ≤ 5 := by cases k <;> decide

theorem Failure.code_ne_three {k : Failure} (h : k ≠ .noValidPoint) : k.code ≠ 3#4 := by
  cases k with
  | noValidPoint => exact absurd rfl h
  | invalidModulus | notInvertible | illegalCommand | badOperand => decide

/-! ## The statements -/

/-- Settles O47: each test that is not passed fixes the rule's answer; past all of them the rule
succeeds or raises NotInvertible. -/
theorem failurePriority : Obligations.FailurePriority := by
  intro v s t h
  refine ⟨fun ⟨e, hd⟩ => ?_, fun i hd => ?_⟩
  · obtain rfl := Host.Outcome.next.inj (h.symm.trans (issue_of_decode_error hd s))
    rfl
  have hfail {k : Failure} := issue_status_of_rule_error (k := k) h hd
  refine ⟨fun hm => hfail (ruleOf_of_mod_eq_zero i hm), fun _ heven => hfail (ruleOf_of_evenModulus heven),
    fun _ hord => hfail (ruleOf_of_zeroOrder hord), fun hm hord h1 => ?_, ?_, ?_⟩
  · exact hfail (ruleOf_of_badP1 (Nat.pos_of_ne_zero hm) hord h1)
  · rintro hm ⟨hi, -, h2⟩
    exact hfail (ruleOf_of_badP2 (Nat.pos_of_ne_zero hm) ⟨hi, h2⟩)
  · intro hm heven hord h1 h2
    rcases hr : ruleOf i s with k | r
    · obtain rfl := eq_notInvertible_of_passes_tests (Nat.pos_of_ne_zero hm) heven hord h1 h2 hr
      exact .inr ⟨hfail hr, ne_of_ruleOf_notInvertible hr⟩
    · exact .inl (issue_status_of_rule_ok h hd hr)

/-- Settles O48: a write that reports no success raised a failure from the begun state. -/
theorem failureHasNoPartialEffect : Obligations.FailureHasNoPartialEffect := by
  intro v s t h hvalid
  rcases issue_cases h with ⟨r, rfl⟩ | ⟨k, rfl⟩
  · simp [State.rvalid] at hvalid
  · exact ⟨rfl, k, statusFail_eq k⟩

/-- Settles O55, by the invariant. -/
theorem noValidPointNeverReported : Obligations.NoValidPointNeverReported := by
  intro s hs
  rcases hs.inv.outcome.status_cases with ⟨hst, hc, hz⟩ | hst | ⟨k, hk, hst, hz⟩ <;>
    obtain ⟨herr, hvalid⟩ := State.fields_of_status hst <;> rw [herr, hvalid]
  · exact ⟨by decide, by decide, fun _ => rfl, fun _ => hz, fun _ _ => hc⟩
  · exact ⟨by decide, by decide, fun _ => rfl, nofun, nofun⟩
  · exact ⟨k.code_ne_three hk, k.code_le_five, nofun, fun _ => hz,
      fun _ h => absurd h k.code_ne_zero⟩

/-- Settles O15. -/
theorem idleStepChangesNothing : Obligations.IdleStepChangesNothing :=
  fun _ => step_idle

end Sys2Proof.Machine

/-! Reset and the events that change state (70_reset_and_hazards.md). Every command terminates (R252),
a reset event zeroes every register (R240), and each register changes by the events R241 names for it
and by no other. -/

namespace Sys2Proof.Machine

/-! ## The address of a word, from what the word is (20_memory.md R68) -/

section
variable {c : Config} {off : Nat}

theorem eq_of_locate_cmd (h : locate c off = .cmd) : off = 0x000 := by
  unfold locate at h
  split_ifs at h
  · assumption
  · split at h <;> cases h

theorem eq_of_locate_ptag (h : locate c off = .ptag) : off = 0x008 := by
  unfold locate at h
  split_ifs at h
  · assumption
  · split at h <;> cases h

theorem RegName.number_of_ofNumber {n : Nat} {r : RegName} (h : RegName.ofNumber n = some r) :
    r.number = n := by
  unfold RegName.ofNumber at h
  split at h <;> cases h <;> rfl

/-- An aligned word of a data register lies at the register's offset plus `4 j` (20_memory.md R63). -/
theorem eq_of_locate_data (hc : c.wf) (h4 : off % 4 = 0) {r : RegName} {j : Nat}
    (h : locate c off = .data r j) : off = regOffset c r + 4 * j := by
  unfold locate at h
  split_ifs at h with _ _ _ _ hlow
  split at h
  · next q hq =>
    obtain ⟨rfl, rfl⟩ := Slot.data.inj h
    have hword : (off - 0x100) % regBytes c % 4 = 0 := by
      rw [Nat.mod_mod_of_dvd _ ⟨_, (regBytes_eq hc).1⟩]
      omega
    have hsplit := Nat.div_add_mod' (off - 0x100) (regBytes c)
    rw [regOffset, RegName.number_of_ofNumber hq]
    omega
  · cases h

end

/-! ## What a step changes, by the event it takes -/

section
variable {s t : State}

/-- Everything a step can do, by the word of the window it addresses: a reset, a write to `CMD`, to
`PTAG` or to a word of an operand register, or nothing but the host's side of the window. -/
theorem step_cases_by_word (hc : s.cfg.wf) (h : step s = .next t) :
    (∃ rest, s.pending = .reset :: rest ∧ t = (s.withPending rest).resetEvent) ∨
    (∃ v rest, s.pending = writeAt s.cfg 0x000 v :: rest ∧ issue v (s.withPending rest) = .next t) ∨
    (∃ v rest, s.pending = writeAt s.cfg 0x008 v :: rest ∧
      t = { s.withPending rest with ptag := ptagOfWrite v }) ∨
    (∃ r j v rest, r.isOperand = true ∧ j < regWords s.cfg ∧
      s.pending = writeAt s.cfg (regOffset s.cfg r + 4 * j) v :: rest ∧
      t = (s.withPending rest).setReg r (setWord (s.getReg r) j v)) ∨
    ∃ rest ws, t = (s.withPending rest).withAnswers ws := by
  rcases step_cases h with ⟨-, rfl⟩ | ⟨rest, ⟨hp, rfl⟩ | ⟨_, _, off, -, -, rfl⟩ |
    ⟨addr, bytes, v, off, hp, ha, hw⟩⟩
  · exact .inr (.inr (.inr (.inr ⟨t.pending, [], t.withAnswers_nil.symm⟩)))
  · exact .inl ⟨rest, hp, rfl⟩
  · exact .inr (.inr (.inr (.inr ⟨rest, [memRead s off], rfl⟩)))
  · obtain ⟨rfl, rfl, -, h4⟩ := (accept_ok_iff _ _ _ _).mp ha
    rcases memWrite_cases hw with ⟨hl, -⟩ | ⟨hl, rfl⟩ | ⟨r, j, hl, hr, rfl⟩ | rfl
    · rw [memWrite_cmd v hl] at hw
      obtain rfl := eq_of_locate_cmd hl
      exact .inr (.inl ⟨v, rest, hp, hw⟩)
    · obtain rfl := eq_of_locate_ptag hl
      exact .inr (.inr (.inl ⟨v, rest, hp, rfl⟩))
    · obtain rfl := eq_of_locate_data hc h4 hl
      exact .inr (.inr (.inr (.inl ⟨r, j, v, rest, hr, lt_regWords_of_locate hc hl, hp,
        by rw [← s.getReg_withPending r rest]; rfl⟩)))
    · exact .inr (.inr (.inr (.inr ⟨rest, [], (State.withAnswers_nil _).symm⟩)))

variable (hc : s.cfg.wf) (h : step s = .next t)
include hc h

/-- An operand register changes by a reset and by a write to one of its own words (R241). -/
theorem step_operand_changed {r : RegName} (hr : r.isOperand = true) (hne : t.getReg r ≠ s.getReg r) :
    ∃ rest, s.pending = .reset :: rest ∨
      ∃ j v, j < regWords s.cfg ∧ s.pending = writeAt s.cfg (regOffset s.cfg r + 4 * j) v :: rest := by
  rcases step_cases_by_word hc h with ⟨rest, hp, -⟩ | ⟨v, rest, -, hi⟩ | ⟨v, rest, -, rfl⟩ |
    ⟨q, j, v, rest, -, hj, hp, rfl⟩ | ⟨rest, ws, rfl⟩
  · exact ⟨rest, .inl hp⟩
  · exact absurd (((issue_keepsOperands hi).2.getReg r hr).trans (s.getReg_withPending r rest)) hne
  · exact absurd (by cases r <;> rfl) hne
  · by_cases hq : r = q
    · subst hq
      exact ⟨rest, .inr ⟨j, v, hj, hp⟩⟩
    · exact absurd ((State.getReg_setReg_ne _ _ _ _ hq).trans (s.getReg_withPending r rest)) hne
  · exact absurd (by simp) hne

/-- `PTAG` changes by a reset and by a write to `PTAG` (R241). -/
theorem step_ptag_changed (hne : t.ptag ≠ s.ptag) :
    ∃ rest, s.pending = .reset :: rest ∨ ∃ v, s.pending = writeAt s.cfg 0x008 v :: rest := by
  rcases step_cases_by_word hc h with ⟨rest, hp, -⟩ | ⟨v, rest, -, hi⟩ | ⟨v, rest, hp, -⟩ |
    ⟨q, j, v, rest, -, -, -, rfl⟩ | ⟨rest, ws, rfl⟩
  · exact ⟨rest, .inl hp⟩
  · exact absurd (issue_keepsOperands hi).2.ptag hne
  · exact ⟨rest, .inr ⟨v, hp⟩⟩
  · exact absurd (State.setReg_ptag _ q _) hne
  · exact absurd rfl hne

/-- What the block reports changes by a reset and by a write to `CMD` (R241). -/
theorem step_reported_changed (hne : t.reported ≠ s.reported) :
    ∃ rest, s.pending = .reset :: rest ∨ ∃ v, s.pending = writeAt s.cfg 0x000 v :: rest := by
  rcases step_cases_by_word hc h with ⟨rest, hp, -⟩ | ⟨v, rest, hp, -⟩ | ⟨v, rest, -, rfl⟩ |
    ⟨q, j, v, rest, hq, -, -, rfl⟩ | ⟨rest, ws, rfl⟩
  · exact ⟨rest, .inl hp⟩
  · exact ⟨rest, .inr ⟨v, hp⟩⟩
  · exact absurd rfl hne
  · exact absurd (reported_setReg_operand _ hq _) hne
  · exact absurd rfl hne

end

theorem reported_ne_iff {s t : State} : t.reported ≠ s.reported ↔
    t.cmd ≠ s.cmd ∨ t.status ≠ s.status ∨ t.rtag ≠ s.rtag ∨ t.res ≠ s.res ∨ t.p3x ≠ s.p3x ∨
      t.p3y ≠ s.p3y := by
  simp only [State.reported, ne_eq, Prod.mk.injEq, not_and_or]

/-- The write of any word to `CMD` answers a next state. -/
theorem issue_next (v : Word) (s : State) : ∃ t, issue v s = .next t := by
  rw [← memWrite_cmd v (locate_control s.cfg).1]
  exact memWrite_next 0x000 v s

@[simp] theorem State.getReg_resetEvent (s : State) (r : RegName) : s.resetEvent.getReg r = 0 := by
  cases r <;> rfl

/-! ## The statements -/

/-- Settles O52: one lemma on each group of registers, all by the word a step addresses. -/
theorem onlyWritesAndResetChangeState : Obligations.OnlyWritesAndResetChangeState :=
  fun _ _ hc h => ⟨fun _ hr => step_operand_changed hc h (decide_eq_true hr), step_ptag_changed hc h,
    fun hne => step_reported_changed hc h (reported_ne_iff.mpr hne)⟩

/-- Settles O9: a command is total, and a write to `CMD` is always admitted. -/
theorem everyCommandTerminates : Obligations.EveryCommandTerminates := by
  refine ⟨fun i s => ⟨_, exec_eq i s⟩, fun v s => ?_⟩
  rw [hostEvent_write_cmd]
  exact issue_next v s

/-- Settles O16. -/
theorem resetEventZeroesRegisters : Obligations.ResetEventZeroesRegisters :=
  fun s => ⟨s.resetEvent, rfl, s.resetEvent_cmd, s.resetEvent_status, s.resetEvent_ptag,
    s.resetEvent_rtag, s.getReg_resetEvent, s.resetEvent_cfg, s.resetEvent_pending,
    s.resetEvent_answers⟩

end Sys2Proof.Machine
